-- ==== Sys2Proof/Word.lean ====
section
/-! DEFINITION. The word types of the pc8 CHIP-8 core: 00_scope.md R7 and R8 (bit 0 is the least significant bit,
every value is unsigned). -/

namespace Sys2Proof

/-- A memory byte, a V register, a timer (10_state.md R20, R27, 20_memory.md R50). -/
abbrev Byte := BitVec 8

/-- A 16-bit word: an instruction word, PC, I, a return address (10_state.md R23, R24, R26, 30_encoding.md R70). -/
abbrev Word := BitVec 16

/-- A 4-bit value: a register number, a key number, the fields X, Y, N (00_scope.md R10). -/
abbrev Nibble := BitVec 4

/-- The 12-bit field NNN (00_scope.md R10). -/
abbrev Addr12 := BitVec 12

end Sys2Proof
end

