-- ==== Sys2Proof/Syntax.lean ====
section
/-! DEFINITION. The syntax: the decoded fields of a word (30_encoding.md R71) and the 32 instructions (R74). -/

namespace Sys2Proof

/-- The six overlapping fields that the decoder derives from every word (30_encoding.md R71, R72). -/
structure Fields where
  /-- w[15:12], the instruction class -/
  cls : Nibble
  /-- w[11:8], register index X -/
  x : Nibble
  /-- w[7:4], register index Y -/
  y : Nibble
  /-- w[3:0], immediate nibble N -/
  n : Nibble
  /-- w[7:0], immediate byte NN -/
  nn : Byte
  /-- w[11:0], immediate address NNN -/
  nnn : Addr12
  deriving DecidableEq, Repr

/-- The 32 instructions, in the order of the table of 30_encoding.md R74. An operand has exactly the width of its
field, so every term is an instruction that some word encodes. -/
inductive Instr where
  /-- `00E0` CLS -/
  | cls
  /-- `00EE` RET -/
  | ret
  /-- `1NNN` JP nnn -/
  | jp (nnn : Addr12)
  /-- `2NNN` CALL nnn -/
  | call (nnn : Addr12)
  /-- `3XNN` SE Vx, nn -/
  | seImm (x : Nibble) (nn : Byte)
  /-- `4XNN` SNE Vx, nn -/
  | sneImm (x : Nibble) (nn : Byte)
  /-- `5XY0` SE Vx, Vy -/
  | seReg (x y : Nibble)
  /-- `9XY0` SNE Vx, Vy -/
  | sneReg (x y : Nibble)
  /-- `6XNN` LD Vx, nn -/
  | ldImm (x : Nibble) (nn : Byte)
  /-- `7XNN` ADD Vx, nn -/
  | addImm (x : Nibble) (nn : Byte)
  /-- `8XY0` LD Vx, Vy -/
  | ldReg (x y : Nibble)
  /-- `8XY1` OR Vx, Vy -/
  | orReg (x y : Nibble)
  /-- `8XY2` AND Vx, Vy -/
  | andReg (x y : Nibble)
  /-- `8XY3` XOR Vx, Vy -/
  | xorReg (x y : Nibble)
  /-- `8XY4` ADD Vx, Vy -/
  | addReg (x y : Nibble)
  /-- `8XY5` SUB Vx, Vy -/
  | subReg (x y : Nibble)
  /-- `8XY6` SHR Vx; Y is free and ignored (30_encoding.md R76) -/
  | shr (x y : Nibble)
  /-- `8XYE` SHL Vx; Y is free and ignored (30_encoding.md R76) -/
  | shl (x y : Nibble)
  /-- `ANNN` LD I, nnn -/
  | ldI (nnn : Addr12)
  /-- `CXNN` RND Vx, nn -/
  | rnd (x : Nibble) (nn : Byte)
  /-- `DXYN` DRW Vx, Vy, n -/
  | drw (x y n : Nibble)
  /-- `EX9E` SKP Vx -/
  | skp (x : Nibble)
  /-- `EXA1` SKNP Vx -/
  | sknp (x : Nibble)
  /-- `FX07` LD Vx, DT -/
  | ldVxDt (x : Nibble)
  /-- `FX0A` LD Vx, K -/
  | ldVxK (x : Nibble)
  /-- `FX15` LD DT, Vx -/
  | ldDtVx (x : Nibble)
  /-- `FX18` LD ST, Vx -/
  | ldStVx (x : Nibble)
  /-- `FX1E` ADD I, Vx -/
  | addI (x : Nibble)
  /-- `FX29` LD F, Vx -/
  | ldF (x : Nibble)
  /-- `FX33` LD B, Vx -/
  | ldB (x : Nibble)
  /-- `FX55` LD [I], Vx -/
  | ldMemVx (x : Nibble)
  /-- `FX65` LD Vx, [I] -/
  | ldVxMem (x : Nibble)
  deriving DecidableEq, Repr

end Sys2Proof
end

