-- ==== Sys2Proof/Decode.lean ====
section
/-! DEFINITION. The decoder (30_encoding.md R70 to R78), then the encoder, written from the same table. -/

namespace Sys2Proof

/-- The six fields of a word (30_encoding.md R71). -/
def fieldsOf (w : Word) : Fields :=
  { cls := w.extractLsb' 12 4, x := w.extractLsb' 8 4, y := w.extractLsb' 4 4, n := w.extractLsb' 0 4
    nn := w.extractLsb' 0 8, nnn := w.extractLsb' 0 12 }

/-- Class 0: the whole word must be 0x00E0 or 0x00EE (30_encoding.md R75). -/
def decodeClass0 (nnn : Addr12) : Option Instr :=
  if nnn = 0x0E0#12 then some .cls
  else if nnn = 0x0EE#12 then some .ret
  else none

/-- Class 8: N selects (30_encoding.md R75). -/
def decodeClass8 (x y n : Nibble) : Option Instr :=
  if n = 0x0#4 then some (.ldReg x y)
  else if n = 0x1#4 then some (.orReg x y)
  else if n = 0x2#4 then some (.andReg x y)
  else if n = 0x3#4 then some (.xorReg x y)
  else if n = 0x4#4 then some (.addReg x y)
  else if n = 0x5#4 then some (.subReg x y)
  else if n = 0x6#4 then some (.shr x y)
  else if n = 0xE#4 then some (.shl x y)
  else none

/-- Class E: NN selects (30_encoding.md R75). -/
def decodeClassE (x : Nibble) (nn : Byte) : Option Instr :=
  if nn = 0x9E#8 then some (.skp x)
  else if nn = 0xA1#8 then some (.sknp x)
  else none

/-- Class F: NN selects (30_encoding.md R75). -/
def decodeClassF (x : Nibble) (nn : Byte) : Option Instr :=
  if nn = 0x07#8 then some (.ldVxDt x)
  else if nn = 0x0A#8 then some (.ldVxK x)
  else if nn = 0x15#8 then some (.ldDtVx x)
  else if nn = 0x18#8 then some (.ldStVx x)
  else if nn = 0x1E#8 then some (.addI x)
  else if nn = 0x29#8 then some (.ldF x)
  else if nn = 0x33#8 then some (.ldB x)
  else if nn = 0x55#8 then some (.ldMemVx x)
  else if nn = 0x65#8 then some (.ldVxMem x)
  else none

/-- Selection by class and sub-key (30_encoding.md R75); classes 5 and 9 need N = 0, class B has no instruction. -/
def decodeFields (f : Fields) : Option Instr :=
  if f.cls = 0x0#4 then decodeClass0 f.nnn
  else if f.cls = 0x1#4 then some (.jp f.nnn)
  else if f.cls = 0x2#4 then some (.call f.nnn)
  else if f.cls = 0x3#4 then some (.seImm f.x f.nn)
  else if f.cls = 0x4#4 then some (.sneImm f.x f.nn)
  else if f.cls = 0x5#4 then (if f.n = 0x0#4 then some (.seReg f.x f.y) else none)
  else if f.cls = 0x6#4 then some (.ldImm f.x f.nn)
  else if f.cls = 0x7#4 then some (.addImm f.x f.nn)
  else if f.cls = 0x8#4 then decodeClass8 f.x f.y f.n
  else if f.cls = 0x9#4 then (if f.n = 0x0#4 then some (.sneReg f.x f.y) else none)
  else if f.cls = 0xA#4 then some (.ldI f.nnn)
  else if f.cls = 0xC#4 then some (.rnd f.x f.nn)
  else if f.cls = 0xD#4 then some (.drw f.x f.y f.n)
  else if f.cls = 0xE#4 then decodeClassE f.x f.nn
  else if f.cls = 0xF#4 then decodeClassF f.x f.nn
  else none

/-- The instruction a word selects, or none: an illegal word (30_encoding.md R74, R77). -/
def decode (w : Word) : Option Instr := decodeFields (fieldsOf w)

/-- Why bytes are not an instruction. -/
inductive DecodeError where
  /-- fewer than the two bytes of an instruction -/
  | truncated
  /-- the word matches none of the 32 patterns (30_encoding.md R77) -/
  | unimplementedInstruction (w : Word)
  deriving DecidableEq, Repr

/-- What the decoder answers on bytes: an instruction and the bytes after it, or a rejection by name. -/
inductive Decoded where
  | instr (i : Instr) (rest : List Byte)
  | rejected (e : DecodeError)
  deriving DecidableEq, Repr

/-- A word from its two bytes, the byte at the lower address first: it is the high byte (20_memory.md R56). -/
def wordOfBytes (hi lo : Byte) : Word := hi ++ lo

/-- The two bytes of a word in address order (30_encoding.md R70). -/
def bytesOfWord (w : Word) : List Byte := [w.extractLsb' 8 8, w.extractLsb' 0 8]

/-- Decode the instruction at the front of any bytes. -/
def decodeBytes : List Byte → Decoded
  | hi :: lo :: rest =>
    match decode (wordOfBytes hi lo) with
    | some i => .instr i rest
    | none => .rejected (.unimplementedInstruction (wordOfBytes hi lo))
  | _ => .rejected .truncated

/-- The word whose bits the opcode table numbers: the low `nbits` bits of `w`, every bit above them 0. -/
def tableWord (nbits w : Nat) : Word := BitVec.ofNat 16 (w % 2 ^ nbits)

/-- What the decoder reads from an instruction given as a number with the table's numbering of bits. -/
def decodeTableWord (nbits w : Nat) : Option Instr :=
  match decodeBytes (bytesOfWord (tableWord nbits w)) with
  | .instr i _ => some i
  | .rejected _ => none

/-- The word of an instruction (30_encoding.md R71, R74). -/
def encode : Instr → Word
  | .cls => 0x00E0#16
  | .ret => 0x00EE#16
  | .jp nnn => 0x1#4 ++ nnn
  | .call nnn => 0x2#4 ++ nnn
  | .seImm x nn => 0x3#4 ++ x ++ nn
  | .sneImm x nn => 0x4#4 ++ x ++ nn
  | .seReg x y => 0x5#4 ++ x ++ y ++ 0x0#4
  | .sneReg x y => 0x9#4 ++ x ++ y ++ 0x0#4
  | .ldImm x nn => 0x6#4 ++ x ++ nn
  | .addImm x nn => 0x7#4 ++ x ++ nn
  | .ldReg x y => 0x8#4 ++ x ++ y ++ 0x0#4
  | .orReg x y => 0x8#4 ++ x ++ y ++ 0x1#4
  | .andReg x y => 0x8#4 ++ x ++ y ++ 0x2#4
  | .xorReg x y => 0x8#4 ++ x ++ y ++ 0x3#4
  | .addReg x y => 0x8#4 ++ x ++ y ++ 0x4#4
  | .subReg x y => 0x8#4 ++ x ++ y ++ 0x5#4
  | .shr x y => 0x8#4 ++ x ++ y ++ 0x6#4
  | .shl x y => 0x8#4 ++ x ++ y ++ 0xE#4
  | .ldI nnn => 0xA#4 ++ nnn
  | .rnd x nn => 0xC#4 ++ x ++ nn
  | .drw x y n => 0xD#4 ++ x ++ y ++ n
  | .skp x => 0xE#4 ++ x ++ 0x9E#8
  | .sknp x => 0xE#4 ++ x ++ 0xA1#8
  | .ldVxDt x => 0xF#4 ++ x ++ 0x07#8
  | .ldVxK x => 0xF#4 ++ x ++ 0x0A#8
  | .ldDtVx x => 0xF#4 ++ x ++ 0x15#8
  | .ldStVx x => 0xF#4 ++ x ++ 0x18#8
  | .addI x => 0xF#4 ++ x ++ 0x1E#8
  | .ldF x => 0xF#4 ++ x ++ 0x29#8
  | .ldB x => 0xF#4 ++ x ++ 0x33#8
  | .ldMemVx x => 0xF#4 ++ x ++ 0x55#8
  | .ldVxMem x => 0xF#4 ++ x ++ 0x65#8

/-- One row of the opcode map: a word w selects the row when w AND mask = pattern (30_encoding.md R74). -/
structure OpRow where
  mask : Word
  pattern : Word
  deriving DecidableEq, Repr

/-- Whether a word selects a row. -/
def OpRow.selects (r : OpRow) (w : Word) : Bool := w &&& r.mask == r.pattern

/-- The row of an instruction, as 30_encoding.md R74 prints its mask and match. -/
def rowOf : Instr → OpRow
  | .cls => ⟨0xFFFF#16, 0x00E0#16⟩
  | .ret => ⟨0xFFFF#16, 0x00EE#16⟩
  | .jp _ => ⟨0xF000#16, 0x1000#16⟩
  | .call _ => ⟨0xF000#16, 0x2000#16⟩
  | .seImm _ _ => ⟨0xF000#16, 0x3000#16⟩
  | .sneImm _ _ => ⟨0xF000#16, 0x4000#16⟩
  | .seReg _ _ => ⟨0xF00F#16, 0x5000#16⟩
  | .sneReg _ _ => ⟨0xF00F#16, 0x9000#16⟩
  | .ldImm _ _ => ⟨0xF000#16, 0x6000#16⟩
  | .addImm _ _ => ⟨0xF000#16, 0x7000#16⟩
  | .ldReg _ _ => ⟨0xF00F#16, 0x8000#16⟩
  | .orReg _ _ => ⟨0xF00F#16, 0x8001#16⟩
  | .andReg _ _ => ⟨0xF00F#16, 0x8002#16⟩
  | .xorReg _ _ => ⟨0xF00F#16, 0x8003#16⟩
  | .addReg _ _ => ⟨0xF00F#16, 0x8004#16⟩
  | .subReg _ _ => ⟨0xF00F#16, 0x8005#16⟩
  | .shr _ _ => ⟨0xF00F#16, 0x8006#16⟩
  | .shl _ _ => ⟨0xF00F#16, 0x800E#16⟩
  | .ldI _ => ⟨0xF000#16, 0xA000#16⟩
  | .rnd _ _ => ⟨0xF000#16, 0xC000#16⟩
  | .drw _ _ _ => ⟨0xF000#16, 0xD000#16⟩
  | .skp _ => ⟨0xF0FF#16, 0xE09E#16⟩
  | .sknp _ => ⟨0xF0FF#16, 0xE0A1#16⟩
  | .ldVxDt _ => ⟨0xF0FF#16, 0xF007#16⟩
  | .ldVxK _ => ⟨0xF0FF#16, 0xF00A#16⟩
  | .ldDtVx _ => ⟨0xF0FF#16, 0xF015#16⟩
  | .ldStVx _ => ⟨0xF0FF#16, 0xF018#16⟩
  | .addI _ => ⟨0xF0FF#16, 0xF01E#16⟩
  | .ldF _ => ⟨0xF0FF#16, 0xF029#16⟩
  | .ldB _ => ⟨0xF0FF#16, 0xF033#16⟩
  | .ldMemVx _ => ⟨0xF0FF#16, 0xF055#16⟩
  | .ldVxMem _ => ⟨0xF0FF#16, 0xF065#16⟩

/-- The 32 rows of 30_encoding.md R74 in its order. -/
def opcodeRows : List OpRow :=
  [.cls, .ret, .jp 0, .call 0, .seImm 0 0, .sneImm 0 0, .seReg 0 0, .sneReg 0 0].map rowOf ++
  [.ldImm 0 0, .addImm 0 0, .ldReg 0 0, .orReg 0 0, .andReg 0 0, .xorReg 0 0, .addReg 0 0, .subReg 0 0].map rowOf ++
  [.shr 0 0, .shl 0 0, .ldI 0, .rnd 0 0, .drw 0 0 0, .skp 0, .sknp 0, .ldVxDt 0].map rowOf ++
  [.ldVxK 0, .ldDtVx 0, .ldStVx 0, .addI 0, .ldF 0, .ldB 0, .ldMemVx 0, .ldVxMem 0].map rowOf

/-- A word is legal when it selects a row of the table (30_encoding.md R77). -/
def legalWord (w : Word) : Bool := opcodeRows.any (·.selects w)

end Sys2Proof
end

