-- ==== Sys2Proof/Config.lean ====
section
/-! DEFINITION. The parameters of the hardware (00_scope.md R5) and its free values (92_eei_decisions.md, open
parameters). An opaque constant has no body: nothing can be proved about its value, so what is proved holds for
every value. -/

namespace Sys2Proof.Config

/-- `MEM_SIZE`: addresses 0x000 to 0xFFF (20_memory.md R50). -/
def memSize : Nat := 4096

/-- `ROM_ORIGIN`, which is also the reset vector (70_reset_and_hazards.md R201, R202). -/
def romOrigin : Word := 0x200#16

/-- `FONT_BASE` (43_index_memory.md R142). -/
def fontBase : Word := 0x50#16

/-- `STACK_LIMIT`: none for this hardware, the stack is unbounded (decision D6, 60_exceptions.md R173).
Log entry 6. -/
def stackLimit : Option Nat := none

/-- `FONT_TABLE`: the default that 70_reset_and_hazards.md R203 prints. The load takes the table as an argument.
Log entry 5. -/
def fontTable : Vector Byte 80 :=
  #v[0xF0, 0x90, 0x90, 0x90, 0xF0,
     0x20, 0x60, 0x20, 0x20, 0x70,
     0xF0, 0x10, 0xF0, 0x80, 0xF0,
     0xF0, 0x10, 0xF0, 0x10, 0xF0,
     0x90, 0x90, 0xF0, 0x10, 0x10,
     0xF0, 0x80, 0xF0, 0x10, 0xF0,
     0xF0, 0x80, 0xF0, 0x90, 0xF0,
     0xF0, 0x10, 0x20, 0x40, 0x40,
     0xF0, 0x90, 0xF0, 0x90, 0xF0,
     0xF0, 0x90, 0xF0, 0x10, 0xF0,
     0xF0, 0x90, 0xF0, 0x90, 0x90,
     0xE0, 0x90, 0xE0, 0x90, 0xE0,
     0xF0, 0x80, 0x80, 0x80, 0xF0,
     0xE0, 0x90, 0x90, 0x90, 0xE0,
     0xF0, 0x80, 0xF0, 0x80, 0xF0,
     0xF0, 0x80, 0xF0, 0x80, 0x80]

/-- `KEY_ORDER` as a permutation of the 16 key numbers: implementation-defined but stable (decision D17,
40_step_cycle.md R96). Free: log entry 3. -/
opaque keyPermutation : Equiv.Perm (Fin 16)

/-- `KEY_ORDER` as the sequence of the 16 keys in the order in which a query looks at them. -/
def keyOrder : List Nibble := (List.finRange 16).map fun k => BitVec.ofFin (keyPermutation k)

/-- The keys held in the step that consumes input number `k`, where no listed input says (decision D18,
10_state.md R31). Free: log entry 2. -/
opaque freeKeys (k : Nat) : BitVec 16

/-- The random byte of the step that consumes input number `k`, where no listed input says (decision D19,
42_load_arith_logic.md R130). Free: log entry 2. -/
opaque freeRnd (k : Nat) : Byte

/-- The 4016 bytes at 0x050 to 0xFFF after a load of the ROM `rom`, too long to fit, on a core that has consumed `k`
inputs: 70_reset_and_hazards.md R206 leaves them unspecified. Free: log entry 9. -/
opaque freeLoadBytes (k : Nat) (rom : List Byte) : Vector Byte 4016

end Sys2Proof.Config
end

