-- ==== Sys2Proof/Machine/State.lean ====
section
/-! DEFINITION. The state of the core as plain data: all that 10_state.md R33 lists, three fields of the model's own
(the inputs of the coming steps, how many were consumed, how many beeps were emitted), and the state after power-on
(70_reset_and_hazards.md R201). -/

namespace Sys2Proof.Machine

/-- Which access ran outside the memory (60_exceptions.md R170, cause 3). -/
inductive AccessKind where
  | fetch
  | read
  | write
  | load
  deriving DecidableEq, Repr

/-- A fetched word and its decoded fields, as a fault record carries them (60_exceptions.md R170). -/
structure Opcode where
  word : Word
  fields : Fields
  deriving DecidableEq, Repr

/-- The five fault causes with their information (60_exceptions.md R170). -/
inductive FaultCause where
  /-- cause 1: an illegal word (R171) -/
  | unimplementedInstruction (op : Opcode)
  /-- cause 2: `00EE` with an empty stack (R172) -/
  | stackUnderflow (op : Opcode)
  /-- cause 3: an address above 0xFFF (R175); no opcode for fetch and load -/
  | memoryOutOfBounds (addr : Nat) (kind : AccessKind) (op : Option Opcode)
  /-- cause 4: a key number above 15 (R176) -/
  | invalidKey (value : Byte) (op : Opcode)
  /-- cause 5: a call at the stack limit, only where there is one (R173) -/
  | stackOverflow (op : Opcode)
  deriving DecidableEq, Repr

/-- The cause number (60_exceptions.md R170). -/
def FaultCause.number : FaultCause → Nat
  | .unimplementedInstruction _ => 1
  | .stackUnderflow _ => 2
  | .memoryOutOfBounds _ _ _ => 3
  | .invalidKey _ _ => 4
  | .stackOverflow _ => 5

/-- The fault record: the cause and the PC at the start of the faulting step (60_exceptions.md R170). -/
structure FaultRecord where
  cause : FaultCause
  pc : Word
  deriving DecidableEq, Repr

/-- The run state `RUN` (10_state.md R29). -/
inductive RunState where
  | running
  /-- waiting for a key press into register x -/
  | blocked (x : Nibble)
  /-- terminal -/
  | faulted
  deriving DecidableEq, Repr

/-- The inputs of one step (10_state.md R31): bit k of `keys` says that key k is held; `rnd` is the random byte. -/
structure StepInput where
  keys : BitVec 16
  rnd : Byte
  deriving DecidableEq, Repr

/-- `Mem` as the listed bytes: addresses strictly rising, no entry that reads as an unlisted address does. -/
abbrev Memory := List Host.Cell

/-- What an address that is not listed reads as: memory is zero-initialised (70_reset_and_hazards.md R201).
Log entry 8. -/
def Memory.unlisted : Byte := 0#8

/-- The canonical form from address `lo` upward. -/
def Memory.wfFrom : Nat → Memory → Bool
  | _, [] => true
  | lo, (a, b) :: m => decide (lo ≤ a) && (b != Memory.unlisted) && Memory.wfFrom (a + 1) m

/-- The memory is in its canonical form. -/
def Memory.wf (m : Memory) : Bool := Memory.wfFrom 0 m

/-- `FB`: one 64-bit word a row, row y at index y, the pixel of column x at bit x (10_state.md R28).
Log entry 10. -/
abbrev Framebuffer := Vector (BitVec 64) 32

/-- The whole state. -/
structure State where
  /-- `Mem` (20_memory.md R50) -/
  mem : Memory
  /-- `V[0..15]` (10_state.md R20) -/
  v : Vector Byte 16
  /-- `I` (10_state.md R23) -/
  i : Word
  /-- `PC` (10_state.md R24) -/
  pc : Word
  /-- `Stack`, top last (10_state.md R26) -/
  stack : List Word
  /-- `DT` (10_state.md R27) -/
  dt : Byte
  /-- `ST` (10_state.md R27) -/
  st : Byte
  /-- `FB` (10_state.md R28) -/
  fb : Framebuffer
  /-- `RUN` (10_state.md R29) -/
  run : RunState
  /-- `FAULT` (10_state.md R30) -/
  fault : Option FaultRecord
  /-- the model's own: the inputs of the coming steps, next first (10_state.md R31; log entry 2) -/
  inputs : List StepInput
  /-- the model's own: how many inputs have been consumed (log entry 2) -/
  drawn : Nat
  /-- the model's own: how many beep events have been emitted (10_state.md R32; log entry 4) -/
  beeps : Nat
  deriving DecidableEq, Repr

/-- The state after power-on (70_reset_and_hazards.md R201). The values of V, I, DT, ST, FB, Stack, RUN and FAULT are
R201's own decision (D21): log entry 7. -/
def State.reset : State :=
  { mem := []
    v := Vector.replicate 16 0#8
    i := 0#16
    pc := Config.romOrigin
    stack := []
    dt := 0#8
    st := 0#8
    fb := Vector.replicate 32 0#64
    run := .running
    fault := none
    inputs := []
    drawn := 0
    beeps := 0 }

/-- What stops the machine outside its own states: nothing. The spec describes the entry of every fault as a change
of state (RUN becomes Faulted and FAULT takes the record, 60_exceptions.md R174), a Faulted core still has a step
(40_step_cycle.md R101), and no state is stuck (R186); so no meaning raises one. Log entry 1. -/
inductive Fault where
  deriving DecidableEq, Repr

/-- Why there is no meaning for an instruction. -/
inductive Refusal where
  /-- raised by an arm of exec whose instruction has no meaning yet; none is left. Safe: the run stops. -/
  | notModelled (mnemonic : String)
  deriving DecidableEq, Repr

/-- What a step, or an instruction, answers. -/
abbrev Outcome := Host.Outcome State Fault Refusal

end Sys2Proof.Machine
end

