-- ==== Sys2Proof/Machine/Ops.lean ====
section
/-! DEFINITION. The named operations over memory and registers, fetching an instruction, and raising a fault. -/

namespace Sys2Proof.Machine

/-! ### The memory as a list of cells -/

/-- The byte at an address of the cells. -/
def Memory.read : Memory → Nat → Byte
  | [], _ => Memory.unlisted
  | (a', b) :: m, a => if a = a' then b else Memory.read m a

/-- Store a byte, keeping the canonical form: storing what an unlisted address reads as removes the entry. -/
def Memory.write : Memory → Nat → Byte → Memory
  | [], a, b => if b = Memory.unlisted then [] else [(a, b)]
  | (a', b') :: m, a, b =>
    if a < a' then (if b = Memory.unlisted then (a', b') :: m else (a, b) :: (a', b') :: m)
    else if a = a' then (if b = Memory.unlisted then m else (a, b) :: m)
    else (a', b') :: Memory.write m a b

/-- Store bytes at ascending addresses from `a` (20_memory.md R58). -/
def Memory.writeAll : Memory → Nat → List Byte → Memory
  | m, _, [] => m
  | m, a, b :: bs => Memory.writeAll (Memory.write m a b) (a + 1) bs

/-! ### Checked access (20_memory.md R52 to R55) -/

/-- The lowest address of the range of `n` bytes from `a` that lies outside the memory, if one does: `a` itself or
the first address after the memory (43_index_memory.md R146, 20_memory.md R54). -/
def firstOutside (a n : Nat) : Option Nat :=
  if n = 0 ∨ a + n ≤ Config.memSize then none else some (max a Config.memSize)

/-- Read `n` bytes at ascending addresses from `a`, or answer the lowest address outside the memory. -/
def State.readBytes (s : State) (a n : Nat) : Except Nat (List Byte) :=
  match firstOutside a n with
  | some bad => .error bad
  | none => .ok ((List.range n).map fun k => Memory.read s.mem (a + k))

/-- Store bytes at ascending addresses from `a`, the whole range checked before any is stored (20_memory.md R53, R55),
or answer the lowest address outside the memory. -/
def State.writeBytes (s : State) (a : Nat) (bs : List Byte) : Except Nat State :=
  match firstOutside a bs.length with
  | some bad => .error bad
  | none => .ok { s with mem := Memory.writeAll s.mem a bs }

/-- `MemRead(addr, 1)` (20_memory.md R52). -/
def State.memRead (s : State) (a : Nat) : Except Nat Byte :=
  if a < Config.memSize then .ok (Memory.read s.mem a) else .error a

/-- `MemWrite(addr, 1, v)` (20_memory.md R53). -/
def State.memWrite (s : State) (a : Nat) (b : Byte) : Except Nat State :=
  if a < Config.memSize then .ok { s with mem := Memory.write s.mem a b } else .error a

/-- Fetch: `MemRead(PC, 2)`, big-endian; the first offending address is reported (20_memory.md R54,
40_step_cycle.md R92). -/
def State.fetch (s : State) : Except Nat Word :=
  match s.memRead s.pc.toNat, s.memRead (s.pc.toNat + 1) with
  | .error bad, _ => .error bad
  | _, .error bad => .error bad
  | .ok hi, .ok lo => .ok (wordOfBytes hi lo)

/-! ### Registers -/

/-- `V[x]` (10_state.md R20). -/
def State.getV (s : State) (x : Nibble) : Byte := s.v[x.toNat]'x.isLt

/-- `V[x] <- b` (10_state.md R20, R21). -/
def State.setV (s : State) (x : Nibble) (b : Byte) : State := { s with v := s.v.set x.toNat b x.isLt }

/-- Store bytes into consecutive registers from number `k` (43_index_memory.md R145). -/
def setRegs : Vector Byte 16 → Nat → List Byte → Vector Byte 16
  | v, _, [] => v
  | v, k, b :: bs => setRegs (v.setIfInBounds k b) (k + 1) bs

/-- `V[0]` to `V[x]`, in order (43_index_memory.md R144). -/
def State.regsTo (s : State) (x : Nibble) : List Byte := s.v.toList.take (x.toNat + 1)

/-- The default next pc, PC + 2 (40_step_cycle.md R94). -/
def State.advance (s : State) : State := { s with pc := s.pc + 2#16 }

/-- The next pc of a skip: PC + 4 where the condition holds, else PC + 2 (40_step_cycle.md R94). -/
def State.skipIf (s : State) (c : Bool) : State := { s with pc := s.pc + if c then 4#16 else 2#16 }

/-- `SP`: the number of entries on the stack (10_state.md R32). -/
def State.sp (s : State) : Nat := s.stack.length

/-! ### Inputs of the step (10_state.md R31) -/

/-- The keys held in this step: the next listed input, or a free one (log entry 2). -/
def State.keys (s : State) : BitVec 16 :=
  match s.inputs with
  | [] => Config.freeKeys s.drawn
  | u :: _ => u.keys

/-- The random byte of this step: the next listed input, or a free one (log entry 2). -/
def State.rnd (s : State) : Byte :=
  match s.inputs with
  | [] => Config.freeRnd s.drawn
  | u :: _ => u.rnd

/-- Move on to the inputs of the next step. -/
def State.nextInput (s : State) : State := { s with inputs := s.inputs.tail, drawn := s.drawn + 1 }

/-! ### Taking a fault (60_exceptions.md R174) -/

/-- A word with its decoded fields, as a fault record carries it (60_exceptions.md R170). -/
def opcodeOf (w : Word) : Opcode := { word := w, fields := fieldsOf w }

/-- Fault entry: RUN becomes Faulted and FAULT takes the record; every other piece of state keeps the value it had at
the start of the step, so this is applied to that state. There is no return from a fault (R177). -/
def State.raise (s : State) (c : FaultCause) : State :=
  { s with run := .faulted, fault := some { cause := c, pc := s.pc } }

/-- An instruction that faults: the fault is taken and the machine goes on in the Faulted state. -/
def faultWith (s : State) (c : FaultCause) : Outcome := .next (s.raise c)

end Sys2Proof.Machine
end

