-- ==== Sys2Proof/Machine/Keypad.lean ====
section
/-! DEFINITION. The keypad queries (40_step_cycle.md R96). -/

namespace Sys2Proof.Machine

/-- `KeyDown(k)`: bit k of the keys. -/
def keyDown (keys : BitVec 16) (k : Nibble) : Bool := keys.getLsbD k.toNat

/-- The 16 key numbers. -/
def allKeys : List Nibble := (List.finRange 16).map BitVec.ofFin

/-- `AnyKey()` where queries look at the keys in the order `order`. One held key is found whatever the order is, so
the order is consulted only where two keys or more are held (log entry 3). -/
def anyKeyIn (order : List Nibble) (keys : BitVec 16) : Option Nibble :=
  match allKeys.filter (keyDown keys) with
  | [] => none
  | [k] => some k
  | _ => order.find? (keyDown keys)

/-- `AnyKey()`: the first held key in `KEY_ORDER` (40_step_cycle.md R96). -/
def anyKey (keys : BitVec 16) : Option Nibble := anyKeyIn Config.keyOrder keys

end Sys2Proof.Machine
end

