-- ==== Sys2Proof/Machine/Cycle.lean ====
section
/-! DEFINITION. The parts of a step around the instruction (40_step_cycle.md): the poll, the tick, the end of a step,
and the step itself over a given execution of instructions. Step.lean only applies it to exec. -/

namespace Sys2Proof.Machine

/-- `Poll(x, keys)` of a Blocked step (R97). -/
def State.poll (s : State) (x : Nibble) : State :=
  match anyKey s.keys with
  | none => s
  | some k => { s.setV x (k.setWidth 8) with run := .running }

/-- `Tick()` (R98), with the beep where ST is 1 at the tick (R99). -/
def State.tick (s : State) : State :=
  { s with
    dt := if 0#8 < s.dt then s.dt - 1#8 else s.dt
    st := if 0#8 < s.st then s.st - 1#8 else s.st
    beeps := if s.st = 1#8 then s.beeps + 1 else s.beeps }

/-- The end of a step that raised nothing: the tick, and this step's inputs are used up. -/
def State.endStep (s : State) : State := s.tick.nextInput

/-- The end of a Running step: a step that raised a fault performs no tick (R91, 60_exceptions.md R174). -/
def finishStep : Outcome → Outcome
  | .next t => .next (if t.run = .faulted then t else t.endStep)
  | .fault f => .fault f
  | .refused r => .refused r

/-- A Running step: fetch, dispatch, execute (R91, R92, R93). -/
def runStep (execute : Instr → State → Outcome) (s : State) : Outcome :=
  match s.fetch with
  | .error bad => faultWith s (.memoryOutOfBounds bad .fetch none)
  | .ok w =>
    match decode w with
    | none => faultWith s (.unimplementedInstruction (opcodeOf w))
    | some i => finishStep (execute i s)

/-- One step (R91): a Faulted core changes nothing (R101), a Blocked one polls, a Running one runs. -/
def stepWith (execute : Instr → State → Outcome) (s : State) : Outcome :=
  match s.run with
  | .faulted => .next s
  | .blocked x => .next (s.poll x).endStep
  | .running => runStep execute s

/-- Where the word of `withFetchWord` is stored: at PC, or at the reset vector where PC cannot be fetched from. -/
def State.fetchPlace (s : State) : Word := if s.pc.toNat + 2 ≤ Config.memSize then s.pc else Config.romOrigin

/-- The state with a word stored where the next step fetches, and Running so that it does (log entry 12). -/
def State.placeWord (s : State) (w : Word) : State :=
  { s with
    mem := Memory.writeAll s.mem s.fetchPlace.toNat (bytesOfWord w)
    pc := s.fetchPlace
    run := .running
    fault := none }

end Sys2Proof.Machine
end

