-- ==== Sys2Proof/Machine/Flags.lean ====
section
/-! DEFINITION. The flag computations. VF is the only flag register, and only 8XYE and DXYN write it as a flag
(10_state.md R22). -/

namespace Sys2Proof.Machine

/-- The number of VF. -/
abbrev vf : Nibble := 0xF#4

/-- The flag of 8XYE: the pre-shift least significant bit (42_load_arith_logic.md R129). -/
def lowBitFlag (b : Byte) : Byte := b &&& 1#8

/-- The flag of DXYN: 1 if a flip reported a collision, else 0 (44_display.md R152). -/
def collisionFlag (c : Bool) : Byte := if c then 1#8 else 0#8

/-- Write VF. -/
def State.setVF (s : State) (b : Byte) : State := s.setV vf b

end Sys2Proof.Machine
end

