-- ==== Sys2Proof/Machine/Operands.lean ====
section
/-! DEFINITION. The operand forms: immediates are zero-extended (30_encoding.md R73), the sprite's start coordinates
wrap by mask (44_display.md R152), the address of a glyph and the decimal digits of a byte (43_index_memory.md R142,
R143). -/

namespace Sys2Proof.Machine

/-- NNN as a 16-bit value (30_encoding.md R73). -/
def zextAddr (nnn : Addr12) : Word := nnn.setWidth 16

/-- A byte as a 16-bit value (43_index_memory.md R141). -/
def zextByte (b : Byte) : Word := b.setWidth 16

/-- The start column of a sprite, VX & 63 (44_display.md R152). -/
def startColumn (b : Byte) : Nat := (b &&& 63#8).toNat

/-- The start row of a sprite, VY & 31 (44_display.md R152). -/
def startRow (b : Byte) : Nat := (b &&& 31#8).toNat

/-- The address FX29 computes, at 16 bits and without masking VX (43_index_memory.md R142). -/
def glyphAddress (b : Byte) : Word := Config.fontBase + 5#16 * zextByte b

/-- The hundreds, tens and ones digit of a byte (43_index_memory.md R143). -/
def decimalDigits (b : Byte) : List Byte := [b / 100#8, b / 10#8 % 10#8, b % 10#8]

end Sys2Proof.Machine
end

