-- ==== Sys2Proof/Machine/Arith.lean ====
section
/-! DEFINITION. The register load, arithmetic and logic instructions (42_load_arith_logic.md). Every one reads its
operands before it writes, wraps modulo 256 and writes no flag, but for 8XYE (R131, 10_state.md R22). -/

namespace Sys2Proof.Machine

/-- The shape they share: one result into VX, then the default advance. -/
def State.result (s : State) (x : Nibble) (b : Byte) : Outcome := .next (s.setV x b).advance

/-- `6XNN` LD Vx, nn (R120). -/
def execLdImm (x : Nibble) (nn : Byte) (s : State) : Outcome := s.result x nn

/-- `7XNN` ADD Vx, nn (R121). -/
def execAddImm (x : Nibble) (nn : Byte) (s : State) : Outcome := s.result x (s.getV x + nn)

/-- `8XY0` LD Vx, Vy (R122). -/
def execLdReg (x y : Nibble) (s : State) : Outcome := s.result x (s.getV y)

/-- `8XY1` OR Vx, Vy (R123). -/
def execOrReg (x y : Nibble) (s : State) : Outcome := s.result x (s.getV x ||| s.getV y)

/-- `8XY2` AND Vx, Vy (R124). -/
def execAndReg (x y : Nibble) (s : State) : Outcome := s.result x (s.getV x &&& s.getV y)

/-- `8XY3` XOR Vx, Vy (R125). -/
def execXorReg (x y : Nibble) (s : State) : Outcome := s.result x (s.getV x ^^^ s.getV y)

/-- `8XY4` ADD Vx, Vy: no carry flag (R126). -/
def execAddReg (x y : Nibble) (s : State) : Outcome := s.result x (s.getV x + s.getV y)

/-- `8XY5` SUB Vx, Vy: no borrow flag (R127). -/
def execSubReg (x y : Nibble) (s : State) : Outcome := s.result x (s.getV x - s.getV y)

/-- `8XY6` SHR Vx: logical, Y ignored, the dropped bit lost (R128). -/
def execShr (x _y : Nibble) (s : State) : Outcome := s.result x (s.getV x >>> 1)

/-- `8XYE` SHL Vx: VF takes the old bit 0 first, then VX, read after that write, is shifted (R129, decision D11). -/
def execShl (x _y : Nibble) (s : State) : Outcome :=
  let s' := s.setVF (lowBitFlag (s.getV x))
  s'.result x (s'.getV x <<< 1)

/-- `CXNN` RND Vx, nn: this step's random byte, masked (R130). -/
def execRnd (x : Nibble) (nn : Byte) (s : State) : Outcome := s.result x (s.rnd &&& nn)

end Sys2Proof.Machine
end

