-- ==== Sys2Proof/Machine/Control.lean ====
section
/-! DEFINITION. The control transfer instructions (41_control_flow.md). -/

namespace Sys2Proof.Machine

/-- `00EE` RET (R110): the entry is the return address itself (decision D5). -/
def execRet (s : State) : Outcome :=
  match s.stack.getLast? with
  | none => faultWith s (.stackUnderflow (opcodeOf (encode .ret)))
  | some t => .next { s with stack := s.stack.dropLast, pc := t }

/-- `1NNN` JP (R111). -/
def execJp (nnn : Addr12) (s : State) : Outcome := .next { s with pc := zextAddr nnn }

/-- `2NNN` CALL with a stack limit or none (R112, 60_exceptions.md R173). -/
def callWith (limit : Option Nat) (nnn : Addr12) (s : State) : Outcome :=
  if limit = some s.sp then faultWith s (.stackOverflow (opcodeOf (encode (.call nnn))))
  else .next { s with stack := s.stack ++ [s.pc + 2#16], pc := zextAddr nnn }

/-- `2NNN` CALL (R112). -/
def execCall (nnn : Addr12) (s : State) : Outcome := callWith Config.stackLimit nnn s

/-- `3XNN` SE Vx, nn (R113). -/
def execSeImm (x : Nibble) (nn : Byte) (s : State) : Outcome := .next (s.skipIf (s.getV x == nn))

/-- `4XNN` SNE Vx, nn (R114). -/
def execSneImm (x : Nibble) (nn : Byte) (s : State) : Outcome := .next (s.skipIf (s.getV x != nn))

/-- `5XY0` SE Vx, Vy (R115). -/
def execSeReg (x y : Nibble) (s : State) : Outcome := .next (s.skipIf (s.getV x == s.getV y))

/-- `9XY0` SNE Vx, Vy (R116). -/
def execSneReg (x y : Nibble) (s : State) : Outcome := .next (s.skipIf (s.getV x != s.getV y))

end Sys2Proof.Machine
end

