-- ==== Sys2Proof/Machine/Framebuffer.lean ====
section
/-! DEFINITION. The framebuffer primitives (44_display.md R150, R152). -/

namespace Sys2Proof.Machine

/-- `FB[x][y]`, false outside the screen (10_state.md R28). -/
def Framebuffer.pixel (fb : Framebuffer) (x y : Nat) : Bool :=
  if h : y < 32 then fb[y].getLsbD x else false

/-- Every pixel 0 (44_display.md R151). -/
def Framebuffer.clear : Framebuffer := Vector.replicate 32 0#64

/-- `FB[x][y] <- FB[x][y] ^ b`, for x below 64 and y below 32. -/
def Framebuffer.xorPixel (fb : Framebuffer) (x y : Nat) (b : Bool) : Framebuffer :=
  if h : y < 32 then fb.set y (fb[y] ^^^ ((BitVec.ofBool b).setWidth 64 <<< x)) h else fb

/-- The primitive `Flip`: XOR the pixel and report whether its new value is 0 (44_display.md R150). -/
def Framebuffer.flip (fb : Framebuffer) (x y : Nat) (b : Bool) : Framebuffer × Bool :=
  let fb' := Framebuffer.xorPixel fb x y b
  (fb', !Framebuffer.pixel fb' x y)

/-- A framebuffer and the collisions so far of one draw. -/
structure Drawing where
  fb : Framebuffer
  collided : Bool
  deriving DecidableEq, Repr

/-- One sprite bit: flipped where its pixel is on the screen, clipped elsewhere (44_display.md R152). -/
def Drawing.bit (d : Drawing) (x y : Nat) (b : Bool) : Drawing :=
  if x ≤ 63 ∧ y ≤ 31 then
    let r := Framebuffer.flip d.fb x y b
    { fb := r.1, collided := d.collided || r.2 }
  else d

/-- The columns of one sprite row from column number `j`, `m` of them; bit 7 is the leftmost. -/
def Drawing.columns (d : Drawing) (x0 y : Nat) (row : Byte) : Nat → Nat → Drawing
  | _, 0 => d
  | j, m + 1 => Drawing.columns (d.bit (x0 + j) y (row.getLsbD (7 - j))) x0 y row (j + 1) m

/-- The rows of a sprite, top to bottom from screen row `y` (44_display.md R152). -/
def Drawing.rows (d : Drawing) (x0 : Nat) : Nat → List Byte → Drawing
  | _, [] => d
  | y, row :: rest => Drawing.rows (d.columns x0 y row 0 8) x0 (y + 1) rest

/-- Draw a sprite: no collision before its first bit. -/
def drawSprite (fb : Framebuffer) (x0 y0 : Nat) (sprite : List Byte) : Drawing :=
  Drawing.rows { fb := fb, collided := false } x0 y0 sprite

end Sys2Proof.Machine
end

