-- ==== Sys2Proof/Machine/Index.lean ====
section
/-! DEFINITION. The index register and memory instructions (43_index_memory.md). None changes I but ANNN, FX1E and
FX29, and none writes VF as a flag. -/

namespace Sys2Proof.Machine

/-- The MemoryOutOfBounds cause of a data access of instruction `j` (60_exceptions.md R170). -/
def dataFault (j : Instr) (kind : AccessKind) (bad : Nat) : FaultCause :=
  .memoryOutOfBounds bad kind (some (opcodeOf (encode j)))

/-- A store of instruction `j` at I, then the default advance; a fault if any byte of the range is outside. -/
def State.storeAtI (s : State) (j : Instr) (bs : List Byte) : Outcome :=
  match s.writeBytes s.i.toNat bs with
  | .error bad => faultWith s (dataFault j .write bad)
  | .ok s' => .next s'.advance

/-- `ANNN` LD I, nnn (R140). -/
def execLdI (nnn : Addr12) (s : State) : Outcome := .next { s with i := zextAddr nnn }.advance

/-- `FX1E` ADD I, Vx: modulo 65536, no flag (R141). -/
def execAddI (x : Nibble) (s : State) : Outcome := .next { s with i := s.i + zextByte (s.getV x) }.advance

/-- `FX29` LD F, Vx (R142). -/
def execLdF (x : Nibble) (s : State) : Outcome := .next { s with i := glyphAddress (s.getV x) }.advance

/-- `FX33` LD B, Vx (R143). -/
def execLdB (x : Nibble) (s : State) : Outcome := s.storeAtI (.ldB x) (decimalDigits (s.getV x))

/-- `FX55` LD [I], Vx (R144). -/
def execLdMemVx (x : Nibble) (s : State) : Outcome := s.storeAtI (.ldMemVx x) (s.regsTo x)

/-- `FX65` LD Vx, [I] (R145). -/
def execLdVxMem (x : Nibble) (s : State) : Outcome :=
  match s.readBytes s.i.toNat (x.toNat + 1) with
  | .error bad => faultWith s (dataFault (.ldVxMem x) .read bad)
  | .ok bs => .next { s with v := setRegs s.v 0 bs }.advance

end Sys2Proof.Machine
end

