-- ==== Sys2Proof/Machine/Display.lean ====
section
/-! DEFINITION. The display instructions (44_display.md). -/

namespace Sys2Proof.Machine

/-- `00E0` CLS (R151). -/
def execCls (s : State) : Outcome := .next { s with fb := Framebuffer.clear }.advance

/-- `DXYN` DRW Vx, Vy, n (R152): VX, VY and I are read first, all n bytes are read and checked, VF is written last. -/
def execDrw (x y n : Nibble) (s : State) : Outcome :=
  match s.readBytes s.i.toNat n.toNat with
  | .error bad => faultWith s (dataFault (.drw x y n) .read bad)
  | .ok sprite =>
    let d := drawSprite s.fb (startColumn (s.getV x)) (startRow (s.getV y)) sprite
    .next ({ s with fb := d.fb }.setVF (collisionFlag d.collided)).advance

end Sys2Proof.Machine
end

