-- ==== Sys2Proof/Machine/KeyTimer.lean ====
section
/-! DEFINITION. The keypad and timer instructions (45_keypad_timers.md). -/

namespace Sys2Proof.Machine

/-- The check of EX9E and EXA1 by instruction `j`, then the skip where the key's state is `want` (R160, R161). -/
def State.skipOnKey (s : State) (j : Instr) (x : Nibble) (want : Bool) : Outcome :=
  if 15 < (s.getV x).toNat then faultWith s (.invalidKey (s.getV x) (opcodeOf (encode j)))
  else .next (s.skipIf (keyDown s.keys ((s.getV x).setWidth 4) == want))

/-- `EX9E` SKP Vx (R160). -/
def execSkp (x : Nibble) (s : State) : Outcome := s.skipOnKey (.skp x) x true

/-- `EXA1` SKNP Vx (R161). -/
def execSknp (x : Nibble) (s : State) : Outcome := s.skipOnKey (.sknp x) x false

/-- `FX0A` LD Vx, K: the wait begins; the key arrives in a later step, by the poll (R162). -/
def execLdVxK (x : Nibble) (s : State) : Outcome := .next { s with run := .blocked x }.advance

/-- `FX07` LD Vx, DT (R163). -/
def execLdVxDt (x : Nibble) (s : State) : Outcome := .next (s.setV x s.dt).advance

/-- `FX15` LD DT, Vx (R164). -/
def execLdDtVx (x : Nibble) (s : State) : Outcome := .next { s with dt := s.getV x }.advance

/-- `FX18` LD ST, Vx (R165). -/
def execLdStVx (x : Nibble) (s : State) : Outcome := .next { s with st := s.getV x }.advance

end Sys2Proof.Machine
end

