-- ==== Sys2Proof/Machine/Step.lean ====
section
/-! DEFINITION. The step of the machine, and placing an instruction where the step fetches it. -/

namespace Sys2Proof.Machine

/-- One step of the core (40_step_cycle.md R91). -/
def step (s : State) : Host.Outcome State Fault Refusal := stepWith exec s

/-- The state whose next step runs the instruction with these bits (log entry 12). -/
def State.withFetchWord (s : State) (nbits w : Nat) : State := s.placeWord (tableWord nbits w)

end Sys2Proof.Machine
end

