-- ==== Sys2Proof/Machine/HostOps.lean ====
section
/-! DEFINITION. The host's operations on the core between steps: `load`, `reset` and `cycle(n)`
(70_reset_and_hazards.md R202, R204, R206, 40_step_cycle.md R90). Power-on is State.reset (R200, R201). -/

namespace Sys2Proof.Machine

/-- A fault of a host operation: RUN and FAULT of a core that is Faulted already are left as they are
(60_exceptions.md R177, 10_state.md R30). -/
def State.raiseOnce (s : State) (c : FaultCause) : State := if s.run = .faulted then s else s.raise c

/-- The memory after a load that does not fit: from 0x050 upward unspecified (R206), so free (log entry 9). -/
def State.overlongMemory (s : State) (rom : List Byte) : Memory :=
  Memory.writeAll s.mem Config.fontBase.toNat (Config.freeLoadBytes s.drawn rom).toList

/-- `load(rom)` with a font table: the font at 0x050, the ROM at 0x200, PC to 0x200 and nothing else (R202); a ROM
that does not fit faults (R206). -/
def State.loadWith (font : Vector Byte 80) (rom : List Byte) (s : State) : State :=
  match firstOutside Config.romOrigin.toNat rom.length with
  | some bad => { s with mem := s.overlongMemory rom }.raiseOnce (.memoryOutOfBounds bad .load none)
  | none =>
    { s with
      mem := Memory.writeAll (Memory.writeAll s.mem Config.fontBase.toNat font.toList) Config.romOrigin.toNat rom
      pc := Config.romOrigin }

/-- `load(rom)` with the default font table (R202, R203). -/
def State.load (rom : List Byte) (s : State) : State := s.loadWith Config.fontTable rom

/-- `reset()`: clears the framebuffer, sets PC, and nothing else (R204). -/
def State.hostReset (s : State) : State := { s with fb := Framebuffer.clear, pc := Config.romOrigin }

/-- `cycle(n)`: up to n steps, stopping at once when a step faults, none on a Faulted core (R90). -/
def cycle : Nat → State → Outcome
  | 0, s => .next s
  | n + 1, s =>
    if s.run = .faulted then .next s
    else
      match step s with
      | .next t => cycle n t
      | .fault f => .fault f
      | .refused r => .refused r

end Sys2Proof.Machine
end

