-- ==== Sys2Proof/Safety.lean ====
section
/-! DEFINITION. What the claims count as a safe run, the invariant that rules out states no run reaches, and the words
the claims are written in: which instruction a pattern selects, what an instruction gives, how it faults, what it
leaves unchanged. -/

namespace Sys2Proof.Machine

/-! ### Safe runs and the invariant -/

/-- The core has raised no fault: reaching Faulted is a failure, never a completion (60_exceptions.md R187). -/
def State.Healthy (s : State) : Prop := s.run ≠ .faulted

/-- The memory is in canonical form and lists no address outside 0x000 to 0xFFF (20_memory.md R50). -/
def Memory.Proper (m : Memory) : Prop := Memory.wf m = true ∧ ∀ c ∈ m, c.1 < Config.memSize

/-- The reachable range of PC and of the return addresses (10_state.md R25, 41_control_flow.md R110). -/
def State.PcInRange (s : State) : Prop := s.pc.toNat ≤ 0x1002 ∧ ∀ t ∈ s.stack, 2 ≤ t.toNat ∧ t.toNat ≤ 0x1000

/-- FAULT is none exactly when RUN is not Faulted (10_state.md R30). -/
def State.FaultLatched (s : State) : Prop := s.fault = none ↔ s.run ≠ .faulted

/-- The invariant of the machine. -/
def State.Inv (s : State) : Prop := Memory.Proper s.mem ∧ s.PcInRange ∧ s.FaultLatched

/-- The one check of an instruction passes (60_exceptions.md R178, 70_reset_and_hazards.md R212): it does not fault. -/
def SafeInstr (s : State) : Instr → Prop
  | .ret => s.stack ≠ []
  | .drw _ _ n => n.toNat = 0 ∨ s.i.toNat + n.toNat - 1 ≤ 0xFFF
  | .ldB _ => s.i.toNat + 2 ≤ 0xFFF
  | .ldMemVx x => s.i.toNat + x.toNat ≤ 0xFFF
  | .ldVxMem x => s.i.toNat + x.toNat ≤ 0xFFF
  | .skp x => (s.getV x).toNat ≤ 15
  | .sknp x => (s.getV x).toNat ≤ 15
  | .cls => True
  | .jp _ => True
  | .call _ => True
  | .seImm _ _ => True
  | .sneImm _ _ => True
  | .seReg _ _ => True
  | .sneReg _ _ => True
  | .ldImm _ _ => True
  | .addImm _ _ => True
  | .ldReg _ _ => True
  | .orReg _ _ => True
  | .andReg _ _ => True
  | .xorReg _ _ => True
  | .addReg _ _ => True
  | .subReg _ _ => True
  | .shr _ _ => True
  | .shl _ _ => True
  | .ldI _ => True
  | .rnd _ _ => True
  | .ldVxDt _ => True
  | .ldVxK _ => True
  | .ldDtVx _ => True
  | .ldStVx _ => True
  | .addI _ => True
  | .ldF _ => True

/-! ### What an instruction gives -/

/-- Every word that matches a row of the opcode map decodes to the row's instruction with the word's own fields
(30_encoding.md R74). -/
def RowDecodes (mask pattern : Word) (instrOf : Fields → Instr) : Prop :=
  ∀ w : Word, w &&& mask = pattern → decode w = some (instrOf (fieldsOf w))

/-- The instruction completes in a next state of which `p` holds. -/
def Gives (i : Instr) (s : State) (p : State → Prop) : Prop := ∃ t, exec i s = .next t ∧ p t

/-- The state after the entry of a fault: RUN and FAULT are written and nothing else changes (60_exceptions.md R174). -/
def State.afterFault (s : State) (c : FaultCause) : State :=
  { s with run := .faulted, fault := some { cause := c, pc := s.pc } }

/-- The instruction takes the fault with this cause. -/
def Faults (i : Instr) (s : State) (c : FaultCause) : Prop := exec i s = .next (s.afterFault c)

/-- A word with its fields. -/
def withFields (w : Word) : Opcode := { word := w, fields := fieldsOf w }

/-! ### Frames -/

/-- The pieces of state an instruction can write, the program counter aside. -/
inductive Place where
  | v (x : Nibble)
  | i
  | stack
  | dt
  | st
  | fb
  | run
  | mem
  deriving DecidableEq, Repr

/-- A piece of state reads in `t` as it did in `s`; for the memory, every address does. -/
def State.SameAt (s t : State) : Place → Prop
  | .v x => t.getV x = s.getV x
  | .i => t.i = s.i
  | .stack => t.stack = s.stack
  | .dt => t.dt = s.dt
  | .st => t.st = s.st
  | .fb => t.fb = s.fb
  | .run => t.run = s.run
  | .mem => ∀ a : Nat, Memory.read t.mem a = Memory.read s.mem a

/-- Nothing changes from `s` to `t` but the places listed and the program counter: no other register, flag, timer,
pixel or byte of memory, no stack entry, not the fault record, no input and no beep. -/
def State.Frame (s t : State) (written : List Place) : Prop :=
  (∀ p, p ∉ written → s.SameAt t p) ∧
    t.fault = s.fault ∧ t.inputs = s.inputs ∧ t.drawn = s.drawn ∧ t.beeps = s.beeps

/-- The V registers that an instruction writes: the table of 10_state.md R21. -/
def writtenRegs : Instr → List Nibble
  | .ldImm x _ => [x]
  | .addImm x _ => [x]
  | .ldReg x _ => [x]
  | .orReg x _ => [x]
  | .andReg x _ => [x]
  | .xorReg x _ => [x]
  | .addReg x _ => [x]
  | .subReg x _ => [x]
  | .shr x _ => [x]
  | .shl x _ => [x, 0xF#4]
  | .rnd x _ => [x]
  | .drw _ _ _ => [0xF#4]
  | .ldVxDt x => [x]
  | .ldVxMem x => (List.range (x.toNat + 1)).map (BitVec.ofNat 4)
  | .cls => []
  | .ret => []
  | .jp _ => []
  | .call _ => []
  | .seImm _ _ => []
  | .sneImm _ _ => []
  | .seReg _ _ => []
  | .sneReg _ _ => []
  | .ldI _ => []
  | .skp _ => []
  | .sknp _ => []
  | .ldVxK _ => []
  | .ldDtVx _ => []
  | .ldStVx _ => []
  | .addI _ => []
  | .ldF _ => []
  | .ldB _ => []
  | .ldMemVx _ => []

/-! ### The memory after a store at I (43_index_memory.md R143, R144) -/

/-- The byte at address `a` after FX55: VK at I + K for K up to X, elsewhere the old byte. -/
def State.byteAfterRegs (s : State) (x : Nibble) (a : Nat) : Byte :=
  if s.i.toNat ≤ a ∧ a ≤ s.i.toNat + x.toNat then s.getV (BitVec.ofNat 4 (a - s.i.toNat)) else Memory.read s.mem a

/-- The byte at address `a` after FX33: the decimal digits of VX at I, I + 1, I + 2, elsewhere the old byte. -/
def State.byteAfterDigits (s : State) (x : Nibble) (a : Nat) : Byte :=
  if a = s.i.toNat then BitVec.ofNat 8 ((s.getV x).toNat / 100)
  else if a = s.i.toNat + 1 then BitVec.ofNat 8 ((s.getV x).toNat / 10 % 10)
  else if a = s.i.toNat + 2 then BitVec.ofNat 8 ((s.getV x).toNat % 10)
  else Memory.read s.mem a

/-! ### The rectangle of a sprite (44_display.md R152) -/

/-- The pixel (cx, cy) lies in the 8 by n rectangle that starts at column VX mod 64 and row VY mod 32. -/
def State.spriteCovers (s : State) (x y n : Nibble) (cx cy : Nat) : Prop :=
  (s.getV x).toNat % 64 ≤ cx ∧ cx ≤ (s.getV x).toNat % 64 + 7 ∧
    (s.getV y).toNat % 32 ≤ cy ∧ cy < (s.getV y).toNat % 32 + n.toNat

/-- The sprite bit of the pixel (cx, cy): of the byte at I plus its row, bit 7 in the leftmost column. -/
def State.spriteBit (s : State) (x y : Nibble) (cx cy : Nat) : Bool :=
  (Memory.read s.mem (s.i.toNat + (cy - (s.getV y).toNat % 32))).getLsbD (7 - (cx - (s.getV x).toNat % 64))

end Sys2Proof.Machine
end

