-- ==== Sys2Proof/WellFormed.lean ====
section
/-! DEFINITION. What makes syntax well formed. A term of Instr needs no check: each operand's type has exactly the
width of its field (30_encoding.md R71), so no operand can lie outside what the encoding admits. The decoded fields
of a word overlap (NN = Y * 16 + N, NNN = X * 256 + NN), and that is a check. Which words are instructions at all
is a matter of the encoding table and stands in Decode.lean (legalWord). -/

namespace Sys2Proof

/-- NN agrees with Y and N (30_encoding.md R71). -/
def Fields.nnAgrees (f : Fields) : Bool := f.nn.toNat == f.y.toNat * 16 + f.n.toNat

/-- NNN agrees with X and NN (30_encoding.md R71). -/
def Fields.nnnAgrees (f : Fields) : Bool := f.nnn.toNat == f.x.toNat * 256 + f.nn.toNat

/-- The six fields are those of one word. -/
def Fields.wellFormed (f : Fields) : Bool := f.nnAgrees && f.nnnAgrees

end Sys2Proof
end

