-- ==== Sys2Proof/Certificates/Slice0/Obligations.lean ====
section
/-! DEFINITION. The statements for the provers. Each docstring names the rules of spec/ it formalises. In a statement
about an instruction, RowDecodes says which words select it (its mask and match), Gives that it completes and in which
state, Frame what it leaves unchanged, Faults that it takes the fault named. -/

open Sys2Proof Sys2Proof.Machine

/-! ### Decoding and encoding -/

/-- 30_encoding.md R71: the six fields of a word as numbers. -/
def Obligations.FieldsOfEveryWord : Prop :=
  ∀ w : Word,
    (fieldsOf w).cls.toNat = w.toNat / 4096 ∧ (fieldsOf w).x.toNat = w.toNat / 256 % 16 ∧
    (fieldsOf w).y.toNat = w.toNat / 16 % 16 ∧ (fieldsOf w).n.toNat = w.toNat % 16 ∧
    (fieldsOf w).nn.toNat = w.toNat % 256 ∧ (fieldsOf w).nnn.toNat = w.toNat % 4096 ∧
    (fieldsOf w).wellFormed = true

/-- 30_encoding.md R74, one word or more of each class that has an instruction, written out from the table; and four
words of the illegal space (R77). That 0x5121 is one of them, since N must be 0, is the spec's decision D10 (log entry
15). -/
def Obligations.SampleWordsDecode : Prop :=
  decode 0x00E0#16 = some .cls ∧ decode 0x00EE#16 = some .ret ∧ decode 0x1ABC#16 = some (.jp 0xABC#12) ∧
  decode 0x2ABC#16 = some (.call 0xABC#12) ∧ decode 0x3A42#16 = some (.seImm 0xA#4 0x42#8) ∧
  decode 0x4A42#16 = some (.sneImm 0xA#4 0x42#8) ∧ decode 0x7102#16 = some (.addImm 1#4 0x02#8) ∧
  decode 0x9120#16 = some (.sneReg 1#4 2#4) ∧
  decode 0x5120#16 = some (.seReg 1#4 2#4) ∧ decode 0x6A7F#16 = some (.ldImm 0xA#4 0x7F#8) ∧
  decode 0x8125#16 = some (.subReg 1#4 2#4) ∧ decode 0x812E#16 = some (.shl 1#4 2#4) ∧
  decode 0xA2F0#16 = some (.ldI 0x2F0#12) ∧ decode 0xC10F#16 = some (.rnd 1#4 0x0F#8) ∧
  decode 0xD5A3#16 = some (.drw 5#4 0xA#4 3#4) ∧ decode 0xE2A1#16 = some (.sknp 2#4) ∧
  decode 0xF30A#16 = some (.ldVxK 3#4) ∧ decode 0xF255#16 = some (.ldMemVx 2#4) ∧
  decode 0x0000#16 = none ∧ decode 0x8127#16 = none ∧ decode 0xB200#16 = none ∧ decode 0x5121#16 = none

/-- Encoding loses nothing: every instruction, with every operand the encoding admits, is read back. -/
def Obligations.DecodeOfEncodeIsTheInstruction : Prop := ∀ i : Instr, decode (encode i) = some i

/-- Decoding loses nothing: a word that selects an instruction is that instruction's word. -/
def Obligations.EncodeOfDecodeIsTheWord : Prop := ∀ (w : Word) (i : Instr), decode w = some i → encode i = w

/-- 30_encoding.md R74, R78: a word selects an instruction exactly when it matches a row of the opcode map, and then
exactly one. That the literal digits of a pattern must match is the spec's decision D10. -/
def Obligations.DecodeFollowsOpcodeMap : Prop :=
  (∀ w : Word, (decode w).isSome = legalWord w) ∧
  (∀ (w : Word) (i : Instr), decode w = some i → (rowOf i).selects w = true) ∧
  (∀ r ∈ opcodeRows, ∀ r' ∈ opcodeRows, ∀ w : Word, r.selects w = true → r'.selects w = true → r = r') ∧
  opcodeRows.length = 32

/-- 30_encoding.md R77: the illegal words, class by class. The spec's decision D10. -/
def Obligations.IllegalWordsByClass : Prop :=
  ∀ w : Word, decode w = none ↔
    ((fieldsOf w).cls = 0x0#4 ∧ (fieldsOf w).nnn ≠ 0x0E0#12 ∧ (fieldsOf w).nnn ≠ 0x0EE#12) ∨
    ((fieldsOf w).cls = 0x5#4 ∧ (fieldsOf w).n ≠ 0#4) ∨
    ((fieldsOf w).cls = 0x8#4 ∧ (fieldsOf w).n ∈ [0x7#4, 0x8#4, 0x9#4, 0xA#4, 0xB#4, 0xC#4, 0xD#4, 0xF#4]) ∨
    ((fieldsOf w).cls = 0x9#4 ∧ (fieldsOf w).n ≠ 0#4) ∨
    (fieldsOf w).cls = 0xB#4 ∨
    ((fieldsOf w).cls = 0xE#4 ∧ (fieldsOf w).nn ∉ [0x9E#8, 0xA1#8]) ∨
    ((fieldsOf w).cls = 0xF#4 ∧ (fieldsOf w).nn ∉
      [0x07#8, 0x0A#8, 0x15#8, 0x18#8, 0x1E#8, 0x29#8, 0x33#8, 0x55#8, 0x65#8])

/-! ### Memory -/

/-- 20_memory.md R52, R53: a byte access inside the memory reads or writes that byte alone; outside it raises
MemoryOutOfBounds with its address. The premise is part of the invariant (ResetMeetsInvariant, StepKeepsInvariant).
The spec's decisions D1 and D2. -/
def Obligations.ByteAccessIsChecked : Prop :=
  ∀ (s : State) (a : Nat) (b : Byte), Memory.wf s.mem = true →
    (a ≤ 0xFFF → s.memRead a = .ok (Memory.read s.mem a) ∧
      ∃ t, s.memWrite a b = .ok t ∧ t.memRead a = .ok b ∧
        (∀ a', a' ≠ a → t.memRead a' = s.memRead a') ∧ t = { s with mem := t.mem }) ∧
    (0xFFF < a → s.memRead a = .error a ∧ s.memWrite a b = .error a)

/-- 43_index_memory.md R146, 20_memory.md R54: of a range of bytes, the address reported is the lowest above 0xFFF.
The spec marks R146 as its own (decision D24). -/
def Obligations.LowestOutsideAddressIsReported : Prop :=
  ∀ a n : Nat,
    (firstOutside a n = none ↔ ∀ c, a ≤ c → c < a + n → c ≤ 0xFFF) ∧
    (∀ b, firstOutside a n = some b ↔ (a ≤ b ∧ b < a + n ∧ 0xFFF < b ∧ ∀ c, a ≤ c → c < b → c ≤ 0xFFF))

/-- Two memories in canonical form that read alike at every address are equal data. -/
def Obligations.CanonicalMemoryIsUnique : Prop :=
  ∀ m m' : Memory, Memory.wf m = true → Memory.wf m' = true →
    (∀ a, Memory.read m a = Memory.read m' a) → m = m'

/-- Every store operation keeps the canonical form and, where it is in range, lists no address outside the memory. -/
def Obligations.StoresKeepMemoryProper : Prop :=
  (∀ (s t : State) (a : Nat) (b : Byte), Memory.Proper s.mem → s.memWrite a b = .ok t → Memory.Proper t.mem) ∧
  (∀ (s t : State) (a : Nat) (bs : List Byte), Memory.Proper s.mem → s.writeBytes a bs = .ok t → Memory.Proper t.mem)

/-- 40_step_cycle.md R92: the fetch is big-endian, needs PC ≤ 0xFFE, and a Running step that cannot fetch faults with
the first offending address. The fault is the spec's decision D1. -/
def Obligations.FetchIsBigEndianAndChecked : Prop :=
  ∀ s : State,
    (s.pc.toNat ≤ 0xFFE → ∃ w, s.fetch = .ok w ∧
      w.toNat = (Memory.read s.mem s.pc.toNat).toNat * 256 + (Memory.read s.mem (s.pc.toNat + 1)).toNat) ∧
    (0xFFE < s.pc.toNat → s.run = .running →
      step s = .next (s.afterFault
        (.memoryOutOfBounds (if 0xFFF < s.pc.toNat then s.pc.toNat else s.pc.toNat + 1) .fetch none)))

/-! ### Control flow -/

/-- 41_control_flow.md R110. What an entry holds is the spec's decision D5. -/
def Obligations.RetPopsTheReturnAddress : Prop :=
  RowDecodes 0xFFFF#16 0x00EE#16 (fun _ => .ret) ∧
  (∀ (s : State) (rest : List Word) (a : Word), s.stack = rest ++ [a] →
    Gives .ret s fun t => t.stack = rest ∧ t.pc = a ∧ s.Frame t [.stack]) ∧
  (∀ s : State, s.stack = [] → Faults .ret s (.stackUnderflow (withFields 0x00EE#16)))

/-- 41_control_flow.md R111. For NNN = 0 and 1 the spec's decision D4. -/
def Obligations.JpSetsPc : Prop :=
  RowDecodes 0xF000#16 0x1000#16 (fun f => .jp f.nnn) ∧
  ∀ (s : State) (nnn : Addr12), Gives (.jp nnn) s fun t => t.pc.toNat = nnn.toNat ∧ s.Frame t []

/-- 41_control_flow.md R112, for this hardware, whose stack has no limit. The spec's decisions D4, D5 and D6. -/
def Obligations.CallPushesTheReturnAddress : Prop :=
  RowDecodes 0xF000#16 0x2000#16 (fun f => .call f.nnn) ∧
  ∀ (s : State) (nnn : Addr12), Gives (.call nnn) s fun t =>
    (∃ r : Word, t.stack = s.stack ++ [r] ∧ r.toNat = (s.pc.toNat + 2) % 65536) ∧
    t.sp = s.sp + 1 ∧ t.pc.toNat = nnn.toNat ∧ s.Frame t [.stack]

/-- 60_exceptions.md R173: the call operation with a finite STACK_LIMIT L raises StackOverflow when the stack holds L
entries and is the unlimited call otherwise; for this hardware STACK_LIMIT is none. The spec's decision D6. -/
def Obligations.FiniteStackLimitOverflows : Prop :=
  (∀ (limit : Nat) (nnn : Addr12) (s : State), s.sp = limit →
    callWith (some limit) nnn s = .next (s.afterFault (.stackOverflow (withFields (encode (.call nnn)))))) ∧
  (∀ (limit : Nat) (nnn : Addr12) (s : State), s.sp ≠ limit →
    callWith (some limit) nnn s = callWith none nnn s) ∧
  (∀ (nnn : Addr12) (s : State), exec (.call nnn) s = callWith none nnn s)

/-- 41_control_flow.md R113, R114. -/
def Obligations.ImmediateSkips : Prop :=
  RowDecodes 0xF000#16 0x3000#16 (fun f => .seImm f.x f.nn) ∧
  RowDecodes 0xF000#16 0x4000#16 (fun f => .sneImm f.x f.nn) ∧
  ∀ (s : State) (x : Nibble) (nn : Byte),
    (Gives (.seImm x nn) s fun t => t.pc = (if s.getV x = nn then s.pc + 4#16 else s.pc + 2#16) ∧ s.Frame t []) ∧
    (Gives (.sneImm x nn) s fun t => t.pc = (if s.getV x ≠ nn then s.pc + 4#16 else s.pc + 2#16) ∧ s.Frame t [])

/-- 41_control_flow.md R115, R116; with X = Y the first always skips and the second never does. That N must be 0 is
the spec's decision D10. -/
def Obligations.RegisterSkips : Prop :=
  RowDecodes 0xF00F#16 0x5000#16 (fun f => .seReg f.x f.y) ∧
  RowDecodes 0xF00F#16 0x9000#16 (fun f => .sneReg f.x f.y) ∧
  (∀ (w : Word), w &&& 0xF000#16 = 0x5000#16 ∨ w &&& 0xF000#16 = 0x9000#16 → (fieldsOf w).n ≠ 0#4 → decode w = none) ∧
  (∀ (s : State) (x y : Nibble),
    (Gives (.seReg x y) s fun t =>
      t.pc = (if s.getV x = s.getV y then s.pc + 4#16 else s.pc + 2#16) ∧ s.Frame t []) ∧
    (Gives (.sneReg x y) s fun t =>
      t.pc = (if s.getV x ≠ s.getV y then s.pc + 4#16 else s.pc + 2#16) ∧ s.Frame t [])) ∧
  ∀ (s : State) (x : Nibble),
    (Gives (.seReg x x) s fun t => t.pc = s.pc + 4#16) ∧ (Gives (.sneReg x x) s fun t => t.pc = s.pc + 2#16)

/-- 95_test_vectors.md S3 (41_control_flow.md R110, R112): a call followed at once by a return, in two steps, comes
back to the instruction after the call with the stack as it was. The spec's decision D5. -/
def Obligations.CallThenRetComesBack : Prop :=
  ∀ (s : State) (nnn : Addr12) (w : Word), s.run = .running → s.fetch = .ok w → decode w = some (.call nnn) →
    State.fetch { s with pc := zextAddr nnn } = .ok 0x00EE#16 →
    ∃ t u, step s = .next t ∧ step t = .next u ∧ u.pc.toNat = s.pc.toNat + 2 ∧ u.stack = s.stack ∧ u.run = .running ∧
      (∀ x, u.getV x = s.getV x) ∧ u.i = s.i ∧ u.fb = s.fb ∧ u.mem = s.mem

/-! ### Load, arithmetic, logic -/

/-- 42_load_arith_logic.md R120, R122. -/
def Obligations.RegisterLoads : Prop :=
  RowDecodes 0xF000#16 0x6000#16 (fun f => .ldImm f.x f.nn) ∧
  RowDecodes 0xF00F#16 0x8000#16 (fun f => .ldReg f.x f.y) ∧
  (∀ (s : State) (x : Nibble) (nn : Byte),
    Gives (.ldImm x nn) s fun t => t.getV x = nn ∧ t.pc = s.pc + 2#16 ∧ s.Frame t [.v x]) ∧
  (∀ (s : State) (x y : Nibble),
    Gives (.ldReg x y) s fun t => t.getV x = s.getV y ∧ t.pc = s.pc + 2#16 ∧ s.Frame t [.v x])

/-- 42_load_arith_logic.md R121: modulo 256, no carry flag. -/
def Obligations.AddImmediateWraps : Prop :=
  RowDecodes 0xF000#16 0x7000#16 (fun f => .addImm f.x f.nn) ∧
  ∀ (s : State) (x : Nibble) (nn : Byte), Gives (.addImm x nn) s fun t =>
    (t.getV x).toNat = ((s.getV x).toNat + nn.toNat) % 256 ∧ t.pc = s.pc + 2#16 ∧ s.Frame t [.v x]

/-- 42_load_arith_logic.md R123, R124, R125, bit by bit; VF is not cleared. -/
def Obligations.BitwiseLogic : Prop :=
  RowDecodes 0xF00F#16 0x8001#16 (fun f => .orReg f.x f.y) ∧
  RowDecodes 0xF00F#16 0x8002#16 (fun f => .andReg f.x f.y) ∧
  RowDecodes 0xF00F#16 0x8003#16 (fun f => .xorReg f.x f.y) ∧
  ∀ (s : State) (x y : Nibble),
    (Gives (.orReg x y) s fun t =>
      (∀ k, (t.getV x).getLsbD k = ((s.getV x).getLsbD k || (s.getV y).getLsbD k)) ∧
      t.pc = s.pc + 2#16 ∧ s.Frame t [.v x]) ∧
    (Gives (.andReg x y) s fun t =>
      (∀ k, (t.getV x).getLsbD k = ((s.getV x).getLsbD k && (s.getV y).getLsbD k)) ∧
      t.pc = s.pc + 2#16 ∧ s.Frame t [.v x]) ∧
    (Gives (.xorReg x y) s fun t =>
      (∀ k, (t.getV x).getLsbD k = ((s.getV x).getLsbD k ^^ (s.getV y).getLsbD k)) ∧
      t.pc = s.pc + 2#16 ∧ s.Frame t [.v x])

/-- 42_load_arith_logic.md R126, R127: modulo 256; no carry and no borrow in VF, which changes only as VX. -/
def Obligations.RegisterArithmeticWraps : Prop :=
  RowDecodes 0xF00F#16 0x8004#16 (fun f => .addReg f.x f.y) ∧
  RowDecodes 0xF00F#16 0x8005#16 (fun f => .subReg f.x f.y) ∧
  ∀ (s : State) (x y : Nibble),
    (Gives (.addReg x y) s fun t =>
      (t.getV x).toNat = ((s.getV x).toNat + (s.getV y).toNat) % 256 ∧ t.pc = s.pc + 2#16 ∧ s.Frame t [.v x]) ∧
    (Gives (.subReg x y) s fun t =>
      ((t.getV x).toNat : Int) = ((s.getV x).toNat - (s.getV y).toNat : Int) % 256 ∧
      t.pc = s.pc + 2#16 ∧ s.Frame t [.v x])

/-- 42_load_arith_logic.md R128: logical, of VX whatever Y is, the dropped bit lost, no flag. -/
def Obligations.ShiftRightDropsTheLowBit : Prop :=
  RowDecodes 0xF00F#16 0x8006#16 (fun f => .shr f.x f.y) ∧
  ∀ (s : State) (x y : Nibble), Gives (.shr x y) s fun t =>
    (t.getV x).toNat = (s.getV x).toNat / 2 ∧ t.pc = s.pc + 2#16 ∧ s.Frame t [.v x]

/-- 42_load_arith_logic.md R129: VF takes the pre-shift low bit, VX is doubled modulo 256; with X = F the shift acts
on the VF just written. The case X = F is the spec's decision D11. -/
def Obligations.ShiftLeftFlagsTheLowBit : Prop :=
  RowDecodes 0xF00F#16 0x800E#16 (fun f => .shl f.x f.y) ∧
  (∀ (s : State) (x y : Nibble), x ≠ 0xF#4 → Gives (.shl x y) s fun t =>
    (t.getV x).toNat = (s.getV x).toNat * 2 % 256 ∧ (t.getV 0xF#4).toNat = (s.getV x).toNat % 2 ∧
    t.pc = s.pc + 2#16 ∧ s.Frame t [.v x, .v 0xF#4]) ∧
  (∀ (s : State) (y : Nibble), Gives (.shl 0xF#4 y) s fun t =>
    (t.getV 0xF#4).toNat = (s.getV 0xF#4).toNat % 2 * 2 ∧ t.pc = s.pc + 2#16 ∧ s.Frame t [.v 0xF#4])

/-- 42_load_arith_logic.md R130, 10_state.md R31: VX takes this step's random byte masked, whatever that byte is. That
the byte is the next listed input, or a free value where none is listed, is the model's choice (log entry 2). The draw
is the spec's decision D19. -/
def Obligations.RandomByteIsMasked : Prop :=
  RowDecodes 0xF000#16 0xC000#16 (fun f => .rnd f.x f.nn) ∧
  ∀ (s : State) (x : Nibble) (nn : Byte),
    (Gives (.rnd x nn) s fun t =>
      (∀ k, (t.getV x).getLsbD k = (s.rnd.getLsbD k && nn.getLsbD k)) ∧ t.pc = s.pc + 2#16 ∧ s.Frame t [.v x]) ∧
    (∀ (u : StepInput) (us : List StepInput), s.inputs = u :: us → s.rnd = u.rnd) ∧
    (s.inputs = [] → s.rnd = Config.freeRnd s.drawn)

/-! ### Index register and memory instructions -/

/-- 43_index_memory.md R140, R141, R142. The wrap of FX1E and the unmasked VX of FX29 are the spec's decisions D8 and
D9. -/
def Obligations.IndexRegisterWrites : Prop :=
  RowDecodes 0xF000#16 0xA000#16 (fun f => .ldI f.nnn) ∧
  RowDecodes 0xF0FF#16 0xF01E#16 (fun f => .addI f.x) ∧
  RowDecodes 0xF0FF#16 0xF029#16 (fun f => .ldF f.x) ∧
  (∀ (s : State) (nnn : Addr12),
    Gives (.ldI nnn) s fun t => t.i.toNat = nnn.toNat ∧ t.pc = s.pc + 2#16 ∧ s.Frame t [.i]) ∧
  (∀ (s : State) (x : Nibble),
    (Gives (.addI x) s fun t =>
      t.i.toNat = (s.i.toNat + (s.getV x).toNat) % 65536 ∧ t.pc = s.pc + 2#16 ∧ s.Frame t [.i]) ∧
    (Gives (.ldF x) s fun t =>
      t.i.toNat = 0x50 + 5 * (s.getV x).toNat ∧ t.pc = s.pc + 2#16 ∧ s.Frame t [.i]))

/-- 43_index_memory.md R143: the three decimal digits at I, I + 1, I + 2; a fault and no store when I + 2 > 0xFFF. The
fault is the spec's decisions D1, D2 and D24. -/
def Obligations.DecimalDigitsAreStored : Prop :=
  RowDecodes 0xF0FF#16 0xF033#16 (fun f => .ldB f.x) ∧
  (∀ (s : State) (x : Nibble), Memory.wf s.mem = true → s.i.toNat + 2 ≤ 0xFFF → Gives (.ldB x) s fun t =>
    (Memory.read t.mem s.i.toNat).toNat = (s.getV x).toNat / 100 ∧
    (Memory.read t.mem (s.i.toNat + 1)).toNat = (s.getV x).toNat / 10 % 10 ∧
    (Memory.read t.mem (s.i.toNat + 2)).toNat = (s.getV x).toNat % 10 ∧
    (∀ a, ¬ (s.i.toNat ≤ a ∧ a ≤ s.i.toNat + 2) → Memory.read t.mem a = Memory.read s.mem a) ∧
    t.pc = s.pc + 2#16 ∧ s.Frame t [.mem]) ∧
  (∀ (s : State) (x : Nibble), 0xFFF < s.i.toNat + 2 → Faults (.ldB x) s
    (.memoryOutOfBounds (if 0xFFF < s.i.toNat then s.i.toNat else 0x1000) .write (some (withFields (encode (.ldB x))))))

/-- 43_index_memory.md R144: V0 to VX at I to I + X; a fault and no store when I + X > 0xFFF. I unchanged: the spec's
decision D20; the fault: D1, D2 and D24. -/
def Obligations.RegistersAreStored : Prop :=
  RowDecodes 0xF0FF#16 0xF055#16 (fun f => .ldMemVx f.x) ∧
  (∀ (s : State) (x : Nibble), Memory.wf s.mem = true → s.i.toNat + x.toNat ≤ 0xFFF → Gives (.ldMemVx x) s fun t =>
    (∀ k : Nibble, k.toNat ≤ x.toNat → Memory.read t.mem (s.i.toNat + k.toNat) = s.getV k) ∧
    (∀ a, ¬ (s.i.toNat ≤ a ∧ a ≤ s.i.toNat + x.toNat) → Memory.read t.mem a = Memory.read s.mem a) ∧
    t.pc = s.pc + 2#16 ∧ s.Frame t [.mem]) ∧
  (∀ (s : State) (x : Nibble), 0xFFF < s.i.toNat + x.toNat → Faults (.ldMemVx x) s
    (.memoryOutOfBounds (if 0xFFF < s.i.toNat then s.i.toNat else 0x1000) .write
      (some (withFields (encode (.ldMemVx x))))))

/-- 43_index_memory.md R145: V0 to VX from I to I + X, the others unchanged; a fault and no load when I + X > 0xFFF. I
unchanged: the spec's decision D20; the fault: D1, D2 and D24. -/
def Obligations.RegistersAreLoaded : Prop :=
  RowDecodes 0xF0FF#16 0xF065#16 (fun f => .ldVxMem f.x) ∧
  (∀ (s : State) (x : Nibble), s.i.toNat + x.toNat ≤ 0xFFF → Gives (.ldVxMem x) s fun t =>
    (∀ k : Nibble, k.toNat ≤ x.toNat → t.getV k = Memory.read s.mem (s.i.toNat + k.toNat)) ∧
    (∀ k : Nibble, x.toNat < k.toNat → t.getV k = s.getV k) ∧
    t.pc = s.pc + 2#16 ∧ s.Frame t ((List.range (x.toNat + 1)).map fun k => .v (BitVec.ofNat 4 k))) ∧
  (∀ (s : State) (x : Nibble), 0xFFF < s.i.toNat + x.toNat → Faults (.ldVxMem x) s
    (.memoryOutOfBounds (if 0xFFF < s.i.toNat then s.i.toNat else 0x1000) .read
      (some (withFields (encode (.ldVxMem x))))))

/-- 95_test_vectors.md S7 (43_index_memory.md R144, R145): loading back after storing reproduces V0 to VX, whatever
happened in between to anything but I and the stored bytes. The spec's decision D20. -/
def Obligations.StoredRegistersLoadBack : Prop :=
  ∀ (s : State) (x : Nibble), Memory.wf s.mem = true → s.i.toNat + x.toNat ≤ 0xFFF →
    Gives (.ldMemVx x) s fun t => ∀ u : State, u.i = t.i →
      (∀ a, t.i.toNat ≤ a → a ≤ t.i.toNat + x.toNat → Memory.read u.mem a = Memory.read t.mem a) →
      Gives (.ldVxMem x) u fun w => ∀ k : Nibble, k.toNat ≤ x.toNat → w.getV k = s.getV k

/-- 20_memory.md R64: what a step of FX33 or FX55 stores is what the next step fetches, with nothing in between. The
next fetch takes each of its two bytes from the stored range where that covers it and from the old memory elsewhere,
wherever the range lies, the storing instruction itself included (vector V-I18). The premises: the store and the next
fetch are in range. The spec marks R64 as derived. -/
def Obligations.FetchSeesThePreviousStore : Prop :=
  (∀ (s : State) (x : Nibble) (w : Word), Memory.wf s.mem = true → s.run = .running → s.fetch = .ok w →
    decode w = some (.ldMemVx x) → s.i.toNat + x.toNat ≤ 0xFFF → s.pc.toNat + 3 ≤ 0xFFF →
    ∃ t, step s = .next t ∧ t.run = .running ∧
      t.fetch = .ok (wordOfBytes (s.byteAfterRegs x (s.pc.toNat + 2)) (s.byteAfterRegs x (s.pc.toNat + 3)))) ∧
  (∀ (s : State) (x : Nibble) (w : Word), Memory.wf s.mem = true → s.run = .running → s.fetch = .ok w →
    decode w = some (.ldB x) → s.i.toNat + 2 ≤ 0xFFF → s.pc.toNat + 3 ≤ 0xFFF →
    ∃ t, step s = .next t ∧ t.run = .running ∧
      t.fetch = .ok (wordOfBytes (s.byteAfterDigits x (s.pc.toNat + 2)) (s.byteAfterDigits x (s.pc.toNat + 3))))

/-! ### Display -/

/-- 44_display.md R150: the flip's table, old pixel and sprite bit to new pixel and report; no other pixel changes. -/
def Obligations.FlipTable : Prop :=
  ∀ (fb : Framebuffer) (x y : Nat) (b : Bool), x < 64 → y < 32 →
    Framebuffer.pixel (Framebuffer.flip fb x y b).1 x y = (Framebuffer.pixel fb x y ^^ b) ∧
    (Framebuffer.flip fb x y b).2 = (Framebuffer.pixel fb x y == b) ∧
    ∀ cx cy, (cx, cy) ≠ (x, y) →
      Framebuffer.pixel (Framebuffer.flip fb x y b).1 cx cy = Framebuffer.pixel fb cx cy

/-- 44_display.md R151. -/
def Obligations.ClearScreen : Prop :=
  RowDecodes 0xFFFF#16 0x00E0#16 (fun _ => .cls) ∧
  ∀ s : State, Gives .cls s fun t =>
    (∀ x y, x < 64 → y < 32 → Framebuffer.pixel t.fb x y = false) ∧ t.pc = s.pc + 2#16 ∧ s.Frame t [.fb]

/-- 44_display.md R152: every pixel of the sprite's rectangle that lies on the screen is XORed with its sprite bit, no
other pixel changes, VF is 1 if a touched pixel is 0 afterwards (which is when its flip reported a collision) and else
0; with N > 0 and an address above 0xFFF, a fault. The spec's decisions D12 to D15, D14 from general knowledge; the
fault: D1, D2 and D24. -/
def Obligations.SpriteIsDrawn : Prop :=
  RowDecodes 0xF000#16 0xD000#16 (fun f => .drw f.x f.y f.n) ∧
  (∀ (s : State) (x y n : Nibble), n = 0#4 ∨ s.i.toNat + n.toNat - 1 ≤ 0xFFF → Gives (.drw x y n) s fun t =>
    (∀ cx cy, cx ≤ 63 → cy ≤ 31 →
      (s.spriteCovers x y n cx cy →
        Framebuffer.pixel t.fb cx cy = (Framebuffer.pixel s.fb cx cy ^^ s.spriteBit x y cx cy)) ∧
      (¬ s.spriteCovers x y n cx cy → Framebuffer.pixel t.fb cx cy = Framebuffer.pixel s.fb cx cy)) ∧
    (t.getV 0xF#4 = 0#8 ∨ t.getV 0xF#4 = 1#8) ∧
    (t.getV 0xF#4 = 1#8 ↔
      ∃ cx cy, cx ≤ 63 ∧ cy ≤ 31 ∧ s.spriteCovers x y n cx cy ∧ Framebuffer.pixel t.fb cx cy = false) ∧
    t.pc = s.pc + 2#16 ∧ s.Frame t [.fb, .v 0xF#4]) ∧
  (∀ (s : State) (x y n : Nibble), n ≠ 0#4 → 0xFFF < s.i.toNat + n.toNat - 1 → Faults (.drw x y n) s
    (.memoryOutOfBounds (if 0xFFF < s.i.toNat then s.i.toNat else 0x1000) .read
      (some (withFields (encode (.drw x y n))))))

/-- 44_display.md R153 (c): the same sprite drawn again at the same place restores the screen, and the second draw has
VF = 1 exactly when the clipped rectangle held a 0 pixel before the first. X and Y are not VF, which the first draw
writes. The spec marks R153 as derived. -/
def Obligations.DrawingTwiceRestoresTheScreen : Prop :=
  ∀ (s : State) (x y n : Nibble), x ≠ 0xF#4 → y ≠ 0xF#4 → n = 0#4 ∨ s.i.toNat + n.toNat - 1 ≤ 0xFFF →
    Gives (.drw x y n) s fun t => Gives (.drw x y n) t fun u =>
      u.fb = s.fb ∧
      (u.getV 0xF#4 = 1#8 ↔
        ∃ cx cy, cx ≤ 63 ∧ cy ≤ 31 ∧ s.spriteCovers x y n cx cy ∧ Framebuffer.pixel s.fb cx cy = false)

/-! ### Keypad and timers -/

/-- 45_keypad_timers.md R160, R161, 40_step_cycle.md R96, 10_state.md R31. The fault is the spec's decision D16. The keys
are those of this step's input, sampled once (D18); that they are the next listed input, or a free value where none is
listed, is the model's choice (log entry 2). -/
def Obligations.KeySkips : Prop :=
  RowDecodes 0xF0FF#16 0xE09E#16 (fun f => .skp f.x) ∧
  RowDecodes 0xF0FF#16 0xE0A1#16 (fun f => .sknp f.x) ∧
  (∀ (s : State) (x : Nibble), (s.getV x).toNat ≤ 15 →
    (Gives (.skp x) s fun t =>
      t.pc = (if s.keys.getLsbD (s.getV x).toNat = true then s.pc + 4#16 else s.pc + 2#16) ∧ s.Frame t []) ∧
    (Gives (.sknp x) s fun t =>
      t.pc = (if s.keys.getLsbD (s.getV x).toNat = false then s.pc + 4#16 else s.pc + 2#16) ∧ s.Frame t [])) ∧
  (∀ (s : State) (x : Nibble), 15 < (s.getV x).toNat →
    Faults (.skp x) s (.invalidKey (s.getV x) (withFields (encode (.skp x)))) ∧
    Faults (.sknp x) s (.invalidKey (s.getV x) (withFields (encode (.sknp x))))) ∧
  (∀ (s : State) (u : StepInput) (us : List StepInput), s.inputs = u :: us → s.keys = u.keys) ∧
  (∀ s : State, s.inputs = [] → s.keys = Config.freeKeys s.drawn)

/-- 45_keypad_timers.md R162, the FX0A step itself: the wait begins, PC moves past the instruction, VX is not written
and the keypad is not sampled. -/
def Obligations.KeyWaitBegins : Prop :=
  RowDecodes 0xF0FF#16 0xF00A#16 (fun f => .ldVxK f.x) ∧
  ∀ (s : State) (x : Nibble),
    Gives (.ldVxK x) s fun t => t.run = .blocked x ∧ t.pc = s.pc + 2#16 ∧ s.Frame t [.run]

/-- 40_step_cycle.md R97 to R99: a Blocked step polls. On a hit the register takes the key and the core is Running; on a
miss it stays Blocked; in both cases PC stays and the step ends with the tick and its beep. That the end of the step
uses up the step's input is the model's choice (log entry 2), and so is the counter of beeps (log entry 4). -/
def Obligations.BlockedStepPolls : Prop :=
  (∀ (s : State) (x : Nibble), s.run = .blocked x → anyKey s.keys = none → step s = .next s.endStep) ∧
  (∀ (s : State) (x k : Nibble), s.run = .blocked x → anyKey s.keys = some k → ∃ t, step s = .next t ∧
    t.run = .running ∧ (t.getV x).toNat = k.toNat ∧ t.pc = s.pc ∧ (∀ y, y ≠ x → t.getV y = s.getV y) ∧
    t.i = s.i ∧ t.stack = s.stack ∧ t.mem = s.mem ∧ t.fb = s.fb ∧ t.fault = s.fault ∧
    t.dt.toNat = s.dt.toNat - 1 ∧ t.st.toNat = s.st.toNat - 1 ∧
    t.beeps = (if s.st.toNat = 1 then s.beeps + 1 else s.beeps))

/-- 40_step_cycle.md R96: AnyKey answers the first held key in KEY_ORDER, which is a fixed sequence of all 16 keys,
and none when no key is held; when one key alone is held it is that key. The spec's decisions D17 and D18; log entry
3. -/
def Obligations.AnyKeyFollowsKeyOrder : Prop :=
  Config.keyOrder.Nodup ∧ (∀ k : Nibble, k ∈ Config.keyOrder) ∧
  (∀ keys : BitVec 16, anyKey keys = Config.keyOrder.find? (fun k => keys.getLsbD k.toNat)) ∧
  (anyKey 0#16 = none) ∧
  (∀ (keys : BitVec 16) (k : Nibble), (∀ j : Nibble, keys.getLsbD j.toNat = true ↔ j = k) → anyKey keys = some k)

/-- 45_keypad_timers.md R163, R164, R165, with the tick at the end of the same step. The values after the tick are
marked as derived by the spec. -/
def Obligations.TimerMoves : Prop :=
  RowDecodes 0xF0FF#16 0xF007#16 (fun f => .ldVxDt f.x) ∧
  RowDecodes 0xF0FF#16 0xF015#16 (fun f => .ldDtVx f.x) ∧
  RowDecodes 0xF0FF#16 0xF018#16 (fun f => .ldStVx f.x) ∧
  ∀ (s : State) (x : Nibble),
    (Gives (.ldVxDt x) s fun t => t.getV x = s.dt ∧ t.endStep.dt.toNat = (t.getV x).toNat - 1 ∧
      t.pc = s.pc + 2#16 ∧ s.Frame t [.v x]) ∧
    (Gives (.ldDtVx x) s fun t => t.dt = s.getV x ∧ t.endStep.dt.toNat = (s.getV x).toNat - 1 ∧
      t.pc = s.pc + 2#16 ∧ s.Frame t [.dt]) ∧
    (Gives (.ldStVx x) s fun t => t.st = s.getV x ∧ t.endStep.st.toNat = (s.getV x).toNat - 1 ∧
      t.endStep.beeps = (if (s.getV x).toNat = 1 then s.beeps + 1 else s.beeps) ∧
      t.pc = s.pc + 2#16 ∧ s.Frame t [.st])

/-- 40_step_cycle.md R98, R99: the tick counts each non-zero timer down by one, emits one beep exactly when ST is 1, and
changes nothing else. Which steps end with it: StepRunsTheDecodedInstruction, BlockedStepPolls, TimersRunInEveryStep. -/
def Obligations.TickCountsDownAndBeeps : Prop :=
  ∀ s : State,
    s.tick.dt.toNat = s.dt.toNat - 1 ∧ s.tick.st.toNat = s.st.toNat - 1 ∧
    s.tick.beeps = (if s.st.toNat = 1 then s.beeps + 1 else s.beeps) ∧
    s.tick = { s with dt := s.tick.dt, st := s.tick.st, beeps := s.tick.beeps }

/-! ### The step -/

/-- 40_step_cycle.md R91, R92, R93: a Running step whose word selects an instruction is that instruction, on the state
at the start of the step, and then the end of the step, which a fault leaves out: the tick, and this step's inputs are
used up (the model's choice, log entry 2). -/
def Obligations.StepRunsTheDecodedInstruction : Prop :=
  ∀ (s : State) (i : Instr), s.run = .running → s.pc.toNat ≤ 0xFFE →
    decode (wordOfBytes (Memory.read s.mem s.pc.toNat) (Memory.read s.mem (s.pc.toNat + 1))) = some i →
    (∀ t, exec i s = .next t → t.run ≠ .faulted → step s = .next t.endStep) ∧
    (∀ t, exec i s = .next t → t.run = .faulted → step s = .next t) ∧
    (∀ t : State, t.endStep = { t.tick with inputs := t.inputs.tail, drawn := t.drawn + 1 })

/-- 60_exceptions.md R171, 40_step_cycle.md R93: a Running step whose word is illegal takes UnimplementedInstruction
with the word and its fields. What a fault leaves is the spec's decisions D2 and D3. -/
def Obligations.IllegalWordFaults : Prop :=
  ∀ (s : State) (w : Word), s.run = .running → s.fetch = .ok w → legalWord w = false →
    step s = .next (s.afterFault (.unimplementedInstruction (withFields w)))

/-- 40_step_cycle.md R101, 60_exceptions.md R177: steps, cycle, load and reset on a Faulted core leave RUN and FAULT;
a step or a cycle changes nothing at all. The spec's decision D3. -/
def Obligations.FaultedIsTerminal : Prop :=
  ∀ s : State, s.run = .faulted →
    step s = .next s ∧ (∀ n, cycle n s = .next s) ∧
    (∀ (font : Vector Byte 80) (rom : List Byte),
      (s.loadWith font rom).run = .faulted ∧ (s.loadWith font rom).fault = s.fault) ∧
    s.hostReset.run = .faulted ∧ s.hostReset.fault = s.fault

/-- 60_exceptions.md R174: faults are precise. Whatever the step of a core that is not Faulted was doing, if it ends
Faulted then the state is that before the step but for RUN and FAULT, and FAULT names PC. The spec's decision D2; log
entry 1. -/
def Obligations.FaultsArePrecise : Prop :=
  ∀ s t : State, s.run ≠ .faulted → step s = .next t → t.run = .faulted → ∃ c, t = s.afterFault c

/-- 60_exceptions.md R186: every state has a step; no step is stuck, refused or left without a next state. The spec
marks R186 as derived; log entry 1. -/
def Obligations.EveryStateHasAStep : Prop := ∀ s : State, ∃ t, step s = .next t

/-- 60_exceptions.md R178, 70_reset_and_hazards.md R212: exactly when a Running step does not fault. The spec marks
both as derived (decision D28). -/
def Obligations.StepIsHealthyExactlyWhenChecksPass : Prop :=
  ∀ s t : State, s.run = .running → step s = .next t →
    (t.Healthy ↔ s.pc.toNat ≤ 0xFFE ∧ ∃ w i, s.fetch = .ok w ∧ decode w = some i ∧ SafeInstr s i)

/-- The invariant: canonical memory within 0x000 to 0xFFF, PC at most 0x1002 and return addresses 2 to 0x1000
(10_state.md R25), FAULT none exactly when RUN is not Faulted (R30). Every step keeps it, from every state. The spec
marks R25 as derived. -/
def Obligations.StepKeepsInvariant : Prop := ∀ s t : State, s.Inv → step s = .next t → t.Inv

/-- The invariant holds after power-on. -/
def Obligations.ResetMeetsInvariant : Prop := State.reset.Inv

/-- The host operations keep the invariant too. -/
def Obligations.HostOperationsKeepInvariant : Prop :=
  (∀ (s : State) (font : Vector Byte 80) (rom : List Byte), s.Inv → (s.loadWith font rom).Inv) ∧
  (∀ s : State, s.Inv → s.hostReset.Inv) ∧
  (∀ (n : Nat) (s t : State), s.Inv → cycle n s = .next t → t.Inv)

/-! ### Whole-machine rules -/

/-- 10_state.md R21: an instruction writes no V register but those the table of R21 gives it; so VF is written as a
flag by 8XYE and DXYN alone (R22). The spec marks the table as derived. -/
def Obligations.OnlyListedRegistersAreWritten : Prop :=
  ∀ (i : Instr) (s t : State) (r : Nibble), exec i s = .next t → r ∉ writtenRegs i → t.getV r = s.getV r

/-- 10_state.md R23, R26 to R30, 20_memory.md R51: each other piece of state, PC aside, is written only by the
instructions the spec names for it. RUN changes only by FX0A, to Blocked, or by the entry of a fault (the spec's
decisions D2 and D3), and FAULT only by the latter. The inputs and the beep counter are the model's (log entries 2
and 4). -/
def Obligations.OnlyNamedInstructionsWriteEachPlace : Prop :=
  ∀ (i : Instr) (s t : State), exec i s = .next t →
    (t.i ≠ s.i → (∃ nnn, i = .ldI nnn) ∨ (∃ x, i = .addI x) ∨ ∃ x, i = .ldF x) ∧
    (t.stack ≠ s.stack → i = .ret ∨ ∃ nnn, i = .call nnn) ∧
    (t.dt ≠ s.dt → ∃ x, i = .ldDtVx x) ∧
    (t.st ≠ s.st → ∃ x, i = .ldStVx x) ∧
    (t.fb ≠ s.fb → i = .cls ∨ ∃ x y n, i = .drw x y n) ∧
    (t.mem ≠ s.mem → (∃ x, i = .ldB x) ∨ ∃ x, i = .ldMemVx x) ∧
    (t.run ≠ s.run → (∃ x, i = .ldVxK x ∧ t.run = .blocked x) ∨ ∃ c, t = s.afterFault c) ∧
    (t.fault ≠ s.fault → ∃ c, t = s.afterFault c) ∧
    t.inputs = s.inputs ∧ t.drawn = s.drawn ∧ t.beeps = s.beeps

/-- 40_step_cycle.md R98, 10_state.md R27: in every step that does not end Faulted, DT goes down by one (never below 0)
unless the step runs FX15, and ST unless it runs FX18. -/
def Obligations.TimersRunInEveryStep : Prop :=
  ∀ s t : State, step s = .next t → t.Healthy →
    ((∀ w x, s.run = .running → s.fetch = .ok w → decode w ≠ some (.ldDtVx x)) → t.dt.toNat = s.dt.toNat - 1) ∧
    ((∀ w x, s.run = .running → s.fetch = .ok w → decode w ≠ some (.ldStVx x)) →
      t.st.toNat = s.st.toNat - 1 ∧ t.beeps = (if s.st.toNat = 1 then s.beeps + 1 else s.beeps))

/-- 60_exceptions.md R185, 40_step_cycle.md R97: n Blocked steps with no key held leave the core Blocked and everything
but the timers as it was; both timers have counted n steps down, and one beep was emitted if ST ran out. -/
def Obligations.BlockedCoreWaitsWhileTimersRun : Prop :=
  ∀ (n : Nat) (s : State) (x : Nibble), s.run = .blocked x → n ≤ s.inputs.length →
    (∀ u ∈ s.inputs.take n, u.keys = 0#16) →
    ∃ t, cycle n s = .next t ∧ t.run = .blocked x ∧ t.pc = s.pc ∧ t.v = s.v ∧ t.i = s.i ∧ t.stack = s.stack ∧
      t.mem = s.mem ∧ t.fb = s.fb ∧ t.fault = s.fault ∧ t.inputs = s.inputs.drop n ∧
      t.dt.toNat = s.dt.toNat - n ∧ t.st.toNat = s.st.toNat - n ∧
      t.beeps = s.beeps + (if 1 ≤ s.st.toNat ∧ s.st.toNat ≤ n then 1 else 0)

/-! ### Power-on, load, reset, cycle -/

/-- 70_reset_and_hazards.md R201. The listed memory, RUN, V, I, timers, stack, pixels and FAULT are R201's own values
(its decision D21). -/
def Obligations.PowerOnState : Prop :=
  (∀ a, Memory.read State.reset.mem a = 0#8) ∧ State.reset.pc = 0x200#16 ∧ (∀ x, State.reset.getV x = 0#8) ∧
  State.reset.i = 0#16 ∧ State.reset.dt = 0#8 ∧ State.reset.st = 0#8 ∧ State.reset.sp = 0 ∧
  (∀ x y, Framebuffer.pixel State.reset.fb x y = false) ∧ State.reset.run = .running ∧ State.reset.fault = none

/-- 95_test_vectors.md V-S6: without a load the first step fetches 0x0000, an illegal word. -/
def Obligations.FirstStepWithoutLoadFaults : Prop :=
  step State.reset = .next (State.reset.afterFault (.unimplementedInstruction (withFields 0x0000#16)))

/-- 70_reset_and_hazards.md R202: the font at 0x050, the ROM at 0x200, PC to 0x200 and nothing else, for every font
table and every ROM of at most 3584 bytes. What load leaves alone is the spec's decision D22. -/
def Obligations.LoadPlacesFontAndRom : Prop :=
  ∀ (font : Vector Byte 80) (rom : List Byte) (s : State), Memory.wf s.mem = true → rom.length ≤ 3584 →
    (∀ k (h : k < 80), Memory.read (s.loadWith font rom).mem (0x050 + k) = font[k]) ∧
    (∀ k (h : k < rom.length), Memory.read (s.loadWith font rom).mem (0x200 + k) = rom[k]) ∧
    (∀ a, ¬ (0x050 ≤ a ∧ a ≤ 0x09F) → ¬ (0x200 ≤ a ∧ a < 0x200 + rom.length) →
      Memory.read (s.loadWith font rom).mem a = Memory.read s.mem a) ∧
    s.loadWith font rom = { s with mem := (s.loadWith font rom).mem, pc := 0x200#16 }

/-- 70_reset_and_hazards.md R206: a ROM of more than 3584 bytes faults with address 0x1000 and kind load; the memory
below 0x050 is as it was and nothing is said of the rest. That PC is not set and that the record takes PC at the call
is the model's reading (log entry 9). The fault is the spec's decision D23. -/
def Obligations.OverlongLoadFaults : Prop :=
  ∀ (font : Vector Byte 80) (rom : List Byte) (s : State), Memory.wf s.mem = true → 3584 < rom.length → s.Healthy →
    (s.loadWith font rom).run = .faulted ∧
    (s.loadWith font rom).fault = some { cause := .memoryOutOfBounds 0x1000 .load none, pc := s.pc } ∧
    (∀ a, a < 0x050 → Memory.read (s.loadWith font rom).mem a = Memory.read s.mem a) ∧
    s.loadWith font rom = { s with mem := (s.loadWith font rom).mem, run := .faulted,
                                   fault := (s.loadWith font rom).fault }

/-- 70_reset_and_hazards.md R204: reset clears the framebuffer, sets PC to 0x200 and changes nothing else. What reset
leaves alone beyond the source's sentence is the spec's decision D22. -/
def Obligations.ResetClearsTheScreenOnly : Prop :=
  ∀ s : State, (∀ x y, Framebuffer.pixel s.hostReset.fb x y = false) ∧ s.hostReset.pc = 0x200#16 ∧
    s.hostReset = { s with fb := s.hostReset.fb, pc := s.hostReset.pc }

/-- 40_step_cycle.md R90: cycle(n) is up to n steps; cycle(0) does nothing; m + n steps are m steps and then n; a step
that faults is the last. The spec's decision D27. -/
def Obligations.CycleIsUpToNSteps : Prop :=
  (∀ s : State, cycle 0 s = .next s) ∧
  (∀ (n : Nat) (s t : State), s.run ≠ .faulted → step s = .next t → cycle (n + 1) s = cycle n t) ∧
  (∀ (m n : Nat) (s t : State), cycle m s = .next t → cycle (m + n) s = cycle n t) ∧
  (∀ (n : Nat) (s t : State), s.run ≠ .faulted → step s = .next t → t.run = .faulted → cycle (n + 1) s = .next t) ∧
  (∀ (n : Nat) (s : State), ∃ t, cycle n s = .next t)
end

