-- ==== Sys2Proof/Laws/Decode.lean ====
section
/-! SUPPORT. Fields of a word under a mask and of an encoded word, for the decoder. -/

namespace Sys2Proof

/-! ### The fields of a word that matches a row -/

/-- The class of a word is read off the masked word. -/
theorem cls_of_masked {w mask pattern : Word} (h : w &&& mask = pattern) (hm : mask.extractLsb' 12 4 = 0xF#4) :
    (fieldsOf w).cls = pattern.extractLsb' 12 4 := by
  subst h
  simp only [fieldsOf, BitVec.extractLsb'_and, hm]
  exact (BitVec.and_allOnes (x := w.extractLsb' 12 4)).symm

/-- N of a word is read off the masked word. -/
theorem n_of_masked {w mask pattern : Word} (h : w &&& mask = pattern) (hm : mask.extractLsb' 0 4 = 0xF#4) :
    (fieldsOf w).n = pattern.extractLsb' 0 4 := by
  subst h
  simp only [fieldsOf, BitVec.extractLsb'_and, hm]
  exact (BitVec.and_allOnes (x := w.extractLsb' 0 4)).symm

/-- NN of a word is read off the masked word. -/
theorem nn_of_masked {w mask pattern : Word} (h : w &&& mask = pattern) (hm : mask.extractLsb' 0 8 = 0xFF#8) :
    (fieldsOf w).nn = pattern.extractLsb' 0 8 := by
  subst h
  simp only [fieldsOf, BitVec.extractLsb'_and, hm]
  exact (BitVec.and_allOnes (x := w.extractLsb' 0 8)).symm

/-! ### The fields of an encoded word -/

theorem fieldsOf_nnn (c : Nibble) (nnn : Addr12) :
    (fieldsOf (c ++ nnn)).cls = c ∧ (fieldsOf (c ++ nnn)).nnn = nnn := by
  constructor <;> ext k hk <;>
    simp only [fieldsOf, BitVec.getElem_extractLsb', BitVec.getLsbD_append]
  · rw [if_neg (by omega), show 12 + k - 12 = k by omega, BitVec.getLsbD_eq_getElem hk]
  · rw [if_pos (by omega), Nat.zero_add, BitVec.getLsbD_eq_getElem hk]

theorem fieldsOf_xnn (c x : Nibble) (nn : Byte) :
    (fieldsOf (c ++ x ++ nn)).cls = c ∧ (fieldsOf (c ++ x ++ nn)).x = x ∧ (fieldsOf (c ++ x ++ nn)).nn = nn := by
  refine ⟨?_, ?_, ?_⟩ <;> ext k hk <;>
    simp only [fieldsOf, BitVec.getElem_extractLsb', BitVec.getLsbD_append]
  · rw [if_neg (by omega), if_neg (by omega), show 12 + k - 8 - 4 = k by omega, BitVec.getLsbD_eq_getElem hk]
  · rw [if_neg (by omega), if_pos (by omega), show 8 + k - 8 = k by omega, BitVec.getLsbD_eq_getElem hk]
  · rw [if_pos (by omega), Nat.zero_add, BitVec.getLsbD_eq_getElem hk]

theorem fieldsOf_xyn (c x y n : Nibble) :
    (fieldsOf (c ++ x ++ y ++ n)).cls = c ∧ (fieldsOf (c ++ x ++ y ++ n)).x = x ∧
      (fieldsOf (c ++ x ++ y ++ n)).y = y ∧ (fieldsOf (c ++ x ++ y ++ n)).n = n := by
  refine ⟨?_, ?_, ?_, ?_⟩ <;> ext k hk <;>
    simp only [fieldsOf, BitVec.getElem_extractLsb', BitVec.getLsbD_append]
  · rw [if_neg (by omega), if_neg (by omega), if_neg (by omega), show 12 + k - 4 - 4 - 4 = k by omega,
      BitVec.getLsbD_eq_getElem hk]
  · rw [if_neg (by omega), if_neg (by omega), if_pos (by omega), show 8 + k - 4 - 4 = k by omega,
      BitVec.getLsbD_eq_getElem hk]
  · rw [if_neg (by omega), if_pos (by omega), show 4 + k - 4 = k by omega, BitVec.getLsbD_eq_getElem hk]
  · rw [if_pos (by omega), Nat.zero_add, BitVec.getLsbD_eq_getElem hk]

/-! ### A word from its fields -/

theorem word_of_nnn (w : Word) : (fieldsOf w).cls ++ (fieldsOf w).nnn = w := by
  apply BitVec.eq_of_getLsbD_eq
  intro k hk
  simp only [fieldsOf, BitVec.getLsbD_append, BitVec.getLsbD_extractLsb']
  by_cases h : k < 12
  · simp [h]
  · simp [h, show 12 + (k - 12) = k by omega, show k - 12 < 4 by omega]

theorem word_of_xnn (w : Word) : (fieldsOf w).cls ++ (fieldsOf w).x ++ (fieldsOf w).nn = w := by
  apply BitVec.eq_of_getLsbD_eq
  intro k hk
  simp only [fieldsOf, BitVec.getLsbD_append, BitVec.getLsbD_extractLsb']
  by_cases h : k < 8
  · simp [h]
  · by_cases h' : k < 12
    · simp [h, show k - 8 < 4 by omega, show 8 + (k - 8) = k by omega]
    · simp [h, show ¬ k - 8 < 4 by omega, show 12 + (k - 8 - 4) = k by omega, show k - 8 - 4 < 4 by omega]

theorem word_of_xyn (w : Word) :
    (fieldsOf w).cls ++ (fieldsOf w).x ++ (fieldsOf w).y ++ (fieldsOf w).n = w := by
  apply BitVec.eq_of_getLsbD_eq
  intro k hk
  simp only [fieldsOf, BitVec.getLsbD_append, BitVec.getLsbD_extractLsb']
  by_cases h : k < 4
  · simp [h]
  · by_cases h' : k < 8
    · simp [h, show k - 4 < 4 by omega, show 4 + (k - 4) = k by omega]
    · by_cases h'' : k < 12
      · simp [h, show ¬ k - 4 < 4 by omega, show k - 4 - 4 < 4 by omega, show 8 + (k - 4 - 4) = k by omega]
      · simp [h, show ¬ k - 4 < 4 by omega, show ¬ k - 4 - 4 < 4 by omega, show 12 + (k - 4 - 4 - 4) = k by omega,
          show k - 4 - 4 - 4 < 4 by omega]

/-! ### The decoder, class by class (30_encoding.md R75) -/

/-- The 16 values of a nibble. -/
theorem nibble_cases (c : Nibble) :
    c = 0#4 ∨ c = 1#4 ∨ c = 2#4 ∨ c = 3#4 ∨ c = 4#4 ∨ c = 5#4 ∨ c = 6#4 ∨ c = 7#4 ∨
    c = 8#4 ∨ c = 9#4 ∨ c = 10#4 ∨ c = 11#4 ∨ c = 12#4 ∨ c = 13#4 ∨ c = 14#4 ∨ c = 15#4 := by
  revert c
  decide

theorem decodeFields_class0 {f : Fields} (h : f.cls = 0#4) :
    decodeFields f = decodeClass0 f.nnn := by
  simp only [decodeFields, h]; rfl

theorem decodeFields_class1 {f : Fields} (h : f.cls = 1#4) :
    decodeFields f = some (.jp f.nnn) := by
  simp only [decodeFields, h]; rfl

theorem decodeFields_class2 {f : Fields} (h : f.cls = 2#4) :
    decodeFields f = some (.call f.nnn) := by
  simp only [decodeFields, h]; rfl

theorem decodeFields_class3 {f : Fields} (h : f.cls = 3#4) :
    decodeFields f = some (.seImm f.x f.nn) := by
  simp only [decodeFields, h]; rfl

theorem decodeFields_class4 {f : Fields} (h : f.cls = 4#4) :
    decodeFields f = some (.sneImm f.x f.nn) := by
  simp only [decodeFields, h]; rfl

theorem decodeFields_class5 {f : Fields} (h : f.cls = 5#4) :
    decodeFields f = (if f.n = 0#4 then some (.seReg f.x f.y) else none) := by
  simp only [decodeFields, h]; rfl

theorem decodeFields_class6 {f : Fields} (h : f.cls = 6#4) :
    decodeFields f = some (.ldImm f.x f.nn) := by
  simp only [decodeFields, h]; rfl

theorem decodeFields_class7 {f : Fields} (h : f.cls = 7#4) :
    decodeFields f = some (.addImm f.x f.nn) := by
  simp only [decodeFields, h]; rfl

theorem decodeFields_class8 {f : Fields} (h : f.cls = 8#4) :
    decodeFields f = decodeClass8 f.x f.y f.n := by
  simp only [decodeFields, h]; rfl

theorem decodeFields_class9 {f : Fields} (h : f.cls = 9#4) :
    decodeFields f = (if f.n = 0#4 then some (.sneReg f.x f.y) else none) := by
  simp only [decodeFields, h]; rfl

theorem decodeFields_classA {f : Fields} (h : f.cls = 10#4) :
    decodeFields f = some (.ldI f.nnn) := by
  simp only [decodeFields, h]; rfl

theorem decodeFields_classB {f : Fields} (h : f.cls = 11#4) :
    decodeFields f = none := by
  simp only [decodeFields, h]; rfl

theorem decodeFields_classC {f : Fields} (h : f.cls = 12#4) :
    decodeFields f = some (.rnd f.x f.nn) := by
  simp only [decodeFields, h]; rfl

theorem decodeFields_classD {f : Fields} (h : f.cls = 13#4) :
    decodeFields f = some (.drw f.x f.y f.n) := by
  simp only [decodeFields, h]; rfl

theorem decodeFields_classE {f : Fields} (h : f.cls = 14#4) :
    decodeFields f = decodeClassE f.x f.nn := by
  simp only [decodeFields, h]; rfl

theorem decodeFields_classF {f : Fields} (h : f.cls = 15#4) :
    decodeFields f = decodeClassF f.x f.nn := by
  simp only [decodeFields, h]; rfl

/-! ### Which words a row selects -/

open Machine in
/-- A row that fixes the class alone. -/
theorem rowDecodes_class {pattern : Word} {mk : Fields → Instr} (c : Nibble) (hp : pattern.extractLsb' 12 4 = c)
    (h : ∀ f : Fields, f.cls = c → decodeFields f = some (mk f)) : RowDecodes 0xF000#16 pattern mk :=
  fun _ hw => h _ ((cls_of_masked hw (by decide)).trans hp)

open Machine in
/-- A row that fixes the class and N. -/
theorem rowDecodes_classN {pattern : Word} {mk : Fields → Instr} (c n : Nibble) (hp : pattern.extractLsb' 12 4 = c)
    (hn : pattern.extractLsb' 0 4 = n)
    (h : ∀ f : Fields, f.cls = c → f.n = n → decodeFields f = some (mk f)) : RowDecodes 0xF00F#16 pattern mk :=
  fun _ hw => h _ ((cls_of_masked hw (by decide)).trans hp) ((n_of_masked hw (by decide)).trans hn)

open Machine in
/-- A row that fixes the class and NN. -/
theorem rowDecodes_classNN {pattern : Word} {mk : Fields → Instr} (c : Nibble) (nn : Byte)
    (hp : pattern.extractLsb' 12 4 = c) (hn : pattern.extractLsb' 0 8 = nn)
    (h : ∀ f : Fields, f.cls = c → f.nn = nn → decodeFields f = some (mk f)) : RowDecodes 0xF0FF#16 pattern mk :=
  fun _ hw => h _ ((cls_of_masked hw (by decide)).trans hp) ((nn_of_masked hw (by decide)).trans hn)

open Machine in
/-- A row that fixes the whole word. -/
theorem rowDecodes_word {pattern : Word} {i : Instr} (h : decode pattern = some i) :
    RowDecodes 0xFFFF#16 pattern (fun _ => i) := by
  intro w hw
  rw [show w &&& 0xFFFF#16 = w from BitVec.and_allOnes] at hw
  rw [hw, h]

/-! ### Masking an encoded word -/

theorem mask_xnn (c x a b : Nibble) (nn m : Byte) :
    ((c ++ x ++ nn : Word) &&& (a ++ b ++ m : Word)) = ((c &&& a) ++ (x &&& b) ++ (nn &&& m) : Word) := by
  rw [BitVec.and_append, BitVec.and_append]

theorem mask_xyn (c x y n a b d e : Nibble) :
    ((c ++ x ++ y ++ n : Word) &&& (a ++ b ++ d ++ e : Word)) =
      ((c &&& a) ++ (x &&& b) ++ (y &&& d) ++ (n &&& e) : Word) := by
  rw [BitVec.and_append, BitVec.and_append, BitVec.and_append]

theorem mask_nnn (c a : Nibble) (nnn m : Addr12) :
    ((c ++ nnn : Word) &&& (a ++ m : Word)) = ((c &&& a) ++ (nnn &&& m) : Word) := by
  rw [BitVec.and_append]

end Sys2Proof
end

