-- ==== Sys2Proof/Laws/Display.lean ====
section
/-! SUPPORT. What the framebuffer primitives do to each pixel, and when a draw reports a collision. -/

namespace Sys2Proof.Machine

/-- Equivalent conditions are decided alike. -/
theorem decide_of_iff {p q : Prop} [Decidable p] [Decidable q] (h : p ↔ q) : decide p = decide q :=
  decide_eq_decide.mpr h

/-- XORing one pixel changes that pixel alone. -/
theorem Framebuffer.pixel_xorPixel (fb : Framebuffer) {x y cx cy : Nat} (b : Bool) (hcx : cx < 64) :
    Framebuffer.pixel (Framebuffer.xorPixel fb x y b) cx cy =
      (Framebuffer.pixel fb cx cy ^^ (decide (cx = x ∧ cy = y ∧ cy < 32) && b)) := by
  unfold Framebuffer.xorPixel
  by_cases hy : y < 32
  · rw [dif_pos hy]
    unfold Framebuffer.pixel
    by_cases hcy : cy < 32
    · rw [dif_pos hcy, dif_pos hcy, Vector.getElem_set]
      by_cases e : y = cy
      · subst e
        rw [if_pos rfl, BitVec.getLsbD_xor, BitVec.getLsbD_shiftLeft]
        by_cases e : cx = x
        · subst e
          cases b <;> simp [hcx, hcy]
        · have : ¬ (cx = x ∧ y = y ∧ y < 32) := fun h => e h.1
          rw [decide_eq_false this]
          by_cases l : cx < x
          · simp [l]
          · have : cx - x ≠ 0 := by omega
            cases b <;> simp [this, hcx, l]
      · have : ¬ (cx = x ∧ cy = y ∧ cy < 32) := fun h => e h.2.1.symm
        simp [e, this]
    · simp [hcy]
  · rw [dif_neg hy]
    have : ¬ (cx = x ∧ cy = y ∧ cy < 32) := by omega
    simp [this]

/-- The new picture of a flip (44_display.md R150). -/
@[simp] theorem Framebuffer.flip_fb (fb : Framebuffer) (x y : Nat) (b : Bool) :
    (Framebuffer.flip fb x y b).1 = Framebuffer.xorPixel fb x y b := rfl

/-- The report of a flip: the new pixel is 0 (44_display.md R150). -/
@[simp] theorem Framebuffer.flip_report (fb : Framebuffer) (x y : Nat) (b : Bool) :
    (Framebuffer.flip fb x y b).2 = !Framebuffer.pixel (Framebuffer.xorPixel fb x y b) x y := rfl

/-- No pixel of a cleared screen is on. -/
@[simp] theorem Framebuffer.pixel_clear (x y : Nat) : Framebuffer.pixel Framebuffer.clear x y = false := by
  unfold Framebuffer.pixel Framebuffer.clear
  split <;> simp

/-- Outside the screen no pixel is on. -/
theorem Framebuffer.pixel_outside (fb : Framebuffer) {x y : Nat} (h : 64 ≤ x ∨ 32 ≤ y) :
    Framebuffer.pixel fb x y = false := by
  unfold Framebuffer.pixel
  split
  · exact BitVec.getLsbD_of_ge _ _ (by omega)
  · rfl

/-- Two pictures that agree on every pixel of the screen are equal. -/
theorem Framebuffer.ext_pixel {fb fb' : Framebuffer}
    (h : ∀ x y, x < 64 → y < 32 → Framebuffer.pixel fb x y = Framebuffer.pixel fb' x y) : fb = fb' := by
  apply Vector.ext
  intro y hy
  apply BitVec.eq_of_getLsbD_eq
  intro x hx
  simpa [Framebuffer.pixel, hy] using h x y hx hy

/-- One sprite bit: the pixel it changes. -/
theorem Drawing.bit_pixel (d : Drawing) {x y cx cy : Nat} (b : Bool) (hcx : cx < 64) (hcy : cy < 32) :
    Framebuffer.pixel (d.bit x y b).fb cx cy =
      (Framebuffer.pixel d.fb cx cy ^^ (decide (cx = x ∧ cy = y) && b)) := by
  unfold Drawing.bit
  split
  · simp [Framebuffer.pixel_xorPixel _ _ hcx, hcy]
  · have : ¬ (cx = x ∧ cy = y) := by omega
    simp [this]

/-- One sprite bit: what it adds to the collisions. -/
theorem Drawing.bit_collided (d : Drawing) (x y : Nat) (b : Bool) :
    (d.bit x y b).collided = true ↔
      d.collided = true ∨ (x < 64 ∧ y < 32 ∧ Framebuffer.pixel (d.bit x y b).fb x y = false) := by
  unfold Drawing.bit
  split
  · rename_i h
    have h1 : x < 64 := by omega
    have h2 : y < 32 := by omega
    simp [h1, h2]
  · rename_i h
    constructor
    · exact .inl
    · rintro (h' | h')
      · exact h'
      · omega

/-- One sprite row: the pixels it changes. -/
theorem Drawing.columns_pixel (m : Nat) : ∀ (d : Drawing) (x0 y j : Nat) (row : Byte) {cx cy : Nat},
    cx < 64 → cy < 32 → Framebuffer.pixel (d.columns x0 y row j m).fb cx cy =
      (Framebuffer.pixel d.fb cx cy ^^
        (decide (cy = y ∧ x0 + j ≤ cx ∧ cx < x0 + j + m) && row.getLsbD (7 - (cx - x0)))) := by
  induction m with
  | zero =>
    intro d x0 y j row cx cy _ _
    rw [decide_eq_false (by omega)]
    simp [Drawing.columns]
  | succ m ih =>
    intro d x0 y j row cx cy hcx hcy
    simp only [Drawing.columns]
    rw [ih _ _ _ _ _ hcx hcy, Drawing.bit_pixel _ _ hcx hcy]
    by_cases h : cx = x0 + j ∧ cy = y
    · obtain ⟨rfl, rfl⟩ := h
      have h1 : ¬ (cy = cy ∧ x0 + (j + 1) ≤ x0 + j ∧ x0 + j < x0 + (j + 1) + m) := by omega
      have h2 : cy = cy ∧ x0 + j ≤ x0 + j ∧ x0 + j < x0 + j + (m + 1) := by omega
      rw [decide_eq_false h1, decide_eq_true h2]
      simp
    · have : (cy = y ∧ x0 + (j + 1) ≤ cx ∧ cx < x0 + (j + 1) + m) ↔
          (cy = y ∧ x0 + j ≤ cx ∧ cx < x0 + j + (m + 1)) := by omega
      have e := decide_of_iff this
      rw [decide_eq_false h, e]
      simp

/-- One sprite row: it reports a collision where a pixel it touched on the screen is 0 afterwards. -/
theorem Drawing.columns_collided (m : Nat) : ∀ (d : Drawing) (x0 y j : Nat) (row : Byte),
    ((d.columns x0 y row j m).collided = true ↔ d.collided = true ∨
      ∃ cx, x0 + j ≤ cx ∧ cx < x0 + j + m ∧ cx < 64 ∧ y < 32 ∧
        Framebuffer.pixel (d.columns x0 y row j m).fb cx y = false) := by
  induction m with
  | zero =>
    intro d x0 y j row
    simp only [Drawing.columns]
    constructor
    · exact .inl
    · rintro (h | ⟨cx, h⟩)
      · exact h
      · omega
  | succ m ih =>
    intro d x0 y j row
    simp only [Drawing.columns]
    rw [ih, Drawing.bit_collided]
    constructor
    · rintro ((h | ⟨hx, hy, h⟩) | ⟨cx, h1, h2, h3, h4, h5⟩)
      · exact .inl h
      · refine .inr ⟨x0 + j, by omega, by omega, hx, hy, ?_⟩
        rw [Drawing.columns_pixel _ _ _ _ _ _ hx hy, h]
        rw [decide_eq_false (by omega)]
        simp
      · exact .inr ⟨cx, by omega, by omega, h3, h4, h5⟩
    · rintro (h | ⟨cx, h1, h2, h3, h4, h5⟩)
      · exact .inl (.inl h)
      · by_cases e : cx = x0 + j
        · subst e
          refine .inl (.inr ⟨h3, h4, ?_⟩)
          rw [Drawing.columns_pixel _ _ _ _ _ _ h3 h4] at h5
          rw [decide_eq_false (by omega)] at h5
          simpa using h5
        · exact .inr ⟨cx, by omega, by omega, h3, h4, h5⟩

/-- The rows of a sprite: the pixels they change. -/
theorem Drawing.rows_pixel (sprite : List Byte) : ∀ (d : Drawing) (x0 y : Nat) {cx cy : Nat}, cx < 64 → cy < 32 →
    Framebuffer.pixel (d.rows x0 y sprite).fb cx cy =
      (Framebuffer.pixel d.fb cx cy ^^
        (decide (x0 ≤ cx ∧ cx ≤ x0 + 7 ∧ y ≤ cy ∧ cy < y + sprite.length) &&
          (sprite.getD (cy - y) 0#8).getLsbD (7 - (cx - x0)))) := by
  induction sprite with
  | nil =>
    intro d x0 y cx cy _ _
    rw [decide_eq_false (by simp only [List.length_nil]; omega)]
    simp [Drawing.rows]
  | cons row rest ih =>
    intro d x0 y cx cy hcx hcy
    simp only [Drawing.rows]
    rw [ih _ _ _ hcx hcy, Drawing.columns_pixel _ _ _ _ _ _ hcx hcy]
    simp only [List.length_cons]
    by_cases e : cy = y
    · subst e
      have h1 : ¬ (x0 ≤ cx ∧ cx ≤ x0 + 7 ∧ cy + 1 ≤ cy ∧ cy < cy + 1 + rest.length) := by omega
      have h2 : (cy = cy ∧ x0 + 0 ≤ cx ∧ cx < x0 + 0 + 8) ↔
          (x0 ≤ cx ∧ cx ≤ x0 + 7 ∧ cy ≤ cy ∧ cy < cy + (rest.length + 1)) := by omega
      have e := decide_of_iff h2
      rw [decide_eq_false h1, e]
      simp
    · have h1 : ¬ (cy = y ∧ x0 + 0 ≤ cx ∧ cx < x0 + 0 + 8) := fun h => e h.1
      by_cases h2 : y ≤ cy
      · have h3 : cy - y = (cy - (y + 1)) + 1 := by omega
        have h4 : (x0 ≤ cx ∧ cx ≤ x0 + 7 ∧ y + 1 ≤ cy ∧ cy < y + 1 + rest.length) ↔
            (x0 ≤ cx ∧ cx ≤ x0 + 7 ∧ y ≤ cy ∧ cy < y + (rest.length + 1)) := by omega
        have e := decide_of_iff h4
        rw [h3, List.getD_cons_succ, decide_eq_false h1, e]
        simp
      · have h3 : ¬ (x0 ≤ cx ∧ cx ≤ x0 + 7 ∧ y + 1 ≤ cy ∧ cy < y + 1 + rest.length) := by omega
        have h4 : ¬ (x0 ≤ cx ∧ cx ≤ x0 + 7 ∧ y ≤ cy ∧ cy < y + (rest.length + 1)) := by omega
        rw [decide_eq_false h1, decide_eq_false h3, decide_eq_false h4]
        simp

/-- The rows of a sprite report a collision where a pixel they touched on the screen is 0 afterwards. -/
theorem Drawing.rows_collided (sprite : List Byte) : ∀ (d : Drawing) (x0 y : Nat),
    ((d.rows x0 y sprite).collided = true ↔ d.collided = true ∨
      ∃ cx cy, x0 ≤ cx ∧ cx ≤ x0 + 7 ∧ y ≤ cy ∧ cy < y + sprite.length ∧ cx < 64 ∧ cy < 32 ∧
        Framebuffer.pixel (d.rows x0 y sprite).fb cx cy = false) := by
  induction sprite with
  | nil =>
    intro d x0 y
    simp only [Drawing.rows]
    constructor
    · exact .inl
    · rintro (h | ⟨cx, cy, h⟩)
      · exact h
      · simp only [List.length_nil] at h
        omega
  | cons row rest ih =>
    intro d x0 y
    simp only [Drawing.rows, List.length_cons]
    rw [ih, Drawing.columns_collided]
    have later : ∀ {cx}, cx < 64 → y < 32 →
        Framebuffer.pixel ((d.columns x0 y row 0 8).rows x0 (y + 1) rest).fb cx y =
          Framebuffer.pixel (d.columns x0 y row 0 8).fb cx y := by
      intro cx hx hy
      rw [Drawing.rows_pixel _ _ _ _ hx hy]
      rw [decide_eq_false (by omega)]
      simp
    constructor
    · rintro ((h | ⟨cx, h1, h2, h3, h4, h5⟩) | ⟨cx, cy, h1, h2, h3, h4, h5, h6, h7⟩)
      · exact .inl h
      · exact .inr ⟨cx, y, by omega, by omega, by omega, by omega, h3, h4, (later h3 h4).trans h5⟩
      · exact .inr ⟨cx, cy, h1, h2, by omega, by omega, h5, h6, h7⟩
    · rintro (h | ⟨cx, cy, h1, h2, h3, h4, h5, h6, h7⟩)
      · exact .inl (.inl h)
      · by_cases e : cy = y
        · subst e
          exact .inl (.inr ⟨cx, by omega, by omega, h5, h6, (later h5 h6).symm.trans h7⟩)
        · exact .inr ⟨cx, cy, h1, h2, by omega, by omega, h5, h6, h7⟩

/-- What a draw does to each pixel of the screen (44_display.md R152). -/
theorem drawSprite_pixel (fb : Framebuffer) (x0 y0 : Nat) (sprite : List Byte) {cx cy : Nat}
    (hcx : cx < 64) (hcy : cy < 32) :
    Framebuffer.pixel (drawSprite fb x0 y0 sprite).fb cx cy =
      (Framebuffer.pixel fb cx cy ^^
        (decide (x0 ≤ cx ∧ cx ≤ x0 + 7 ∧ y0 ≤ cy ∧ cy < y0 + sprite.length) &&
          (sprite.getD (cy - y0) 0#8).getLsbD (7 - (cx - x0)))) :=
  Drawing.rows_pixel sprite _ _ _ hcx hcy

/-- When a draw reports a collision (44_display.md R153 (a)). -/
theorem drawSprite_collided (fb : Framebuffer) (x0 y0 : Nat) (sprite : List Byte) :
    ((drawSprite fb x0 y0 sprite).collided = true ↔
      ∃ cx cy, x0 ≤ cx ∧ cx ≤ x0 + 7 ∧ y0 ≤ cy ∧ cy < y0 + sprite.length ∧ cx < 64 ∧ cy < 32 ∧
        Framebuffer.pixel (drawSprite fb x0 y0 sprite).fb cx cy = false) :=
  (Drawing.rows_collided sprite { fb := fb, collided := false } x0 y0).trans (by simp [drawSprite])

end Sys2Proof.Machine
end

