-- ==== Sys2Proof/Laws/Memory.lean ====
section
/-! SUPPORT. The memory as cells: reading after writing, the canonical form, and the checked accesses. -/

namespace Sys2Proof.Machine

/-! ### The canonical form -/

theorem Memory.wfFrom_mono {lo lo' : Nat} {m : Memory} (h : Memory.wfFrom lo m = true) (hl : lo' ≤ lo) :
    Memory.wfFrom lo' m = true := by
  cases m with
  | nil => rfl
  | cons c m =>
    simp only [Memory.wfFrom, Bool.and_eq_true, decide_eq_true_eq] at h ⊢
    exact ⟨⟨by omega, h.1.2⟩, h.2⟩

/-- An address below the first listed one is not listed. -/
theorem Memory.read_below {lo a : Nat} {m : Memory} (h : Memory.wfFrom lo m = true) (ha : a < lo) :
    Memory.read m a = Memory.unlisted := by
  induction m generalizing lo with
  | nil => rfl
  | cons c m ih =>
    simp only [Memory.wfFrom, Bool.and_eq_true, decide_eq_true_eq] at h
    simp only [Memory.read]
    rw [if_neg (by omega)]
    exact ih h.2 (by omega)

theorem Memory.wfFrom_write {lo a : Nat} {m : Memory} (b : Byte) (h : Memory.wfFrom lo m = true) (ha : lo ≤ a) :
    Memory.wfFrom lo (Memory.write m a b) = true := by
  induction m generalizing lo with
  | nil =>
    simp only [Memory.write]
    split <;> simp_all [Memory.wfFrom]
  | cons c m ih =>
    obtain ⟨a', b'⟩ := c
    simp only [Memory.wfFrom, Bool.and_eq_true, decide_eq_true_eq] at h
    simp only [Memory.write]
    split
    · split
      · simp [Memory.wfFrom, h]
      · simp_all [Memory.wfFrom]
    · split
      · subst a'
        split
        · exact Memory.wfFrom_mono h.2 (by omega)
        · simp_all [Memory.wfFrom]
      · simp only [Memory.wfFrom, Bool.and_eq_true, decide_eq_true_eq]
        exact ⟨h.1, ih h.2 (by omega)⟩

/-- A write keeps the canonical form. -/
theorem Memory.wf_write {m : Memory} (a : Nat) (b : Byte) (h : Memory.wf m = true) :
    Memory.wf (Memory.write m a b) = true := Memory.wfFrom_write b h (Nat.zero_le a)

theorem Memory.wf_writeAll {m : Memory} (a : Nat) (bs : List Byte) (h : Memory.wf m = true) :
    Memory.wf (Memory.writeAll m a bs) = true := by
  induction bs generalizing m a with
  | nil => exact h
  | cons b bs ih => exact ih (a + 1) (Memory.wf_write a b h)

/-- An address a write lists was listed before or is the written one. -/
theorem Memory.mem_write {m : Memory} {a : Nat} {b : Byte} {c : Host.Cell} (h : c ∈ Memory.write m a b) :
    c.1 = a ∨ c ∈ m := by
  induction m with
  | nil =>
    simp only [Memory.write] at h
    split at h <;> simp_all
  | cons d m ih =>
    simp only [Memory.write] at h
    split at h
    · split at h
      · exact .inr h
      · rcases List.mem_cons.mp h with rfl | h
        · exact .inl rfl
        · exact .inr h
    · split at h
      · split at h
        · exact .inr (List.mem_cons_of_mem _ h)
        · rcases List.mem_cons.mp h with rfl | h
          · exact .inl rfl
          · exact .inr (List.mem_cons_of_mem _ h)
      · rcases List.mem_cons.mp h with rfl | h
        · exact .inr List.mem_cons_self
        · rcases ih h with h | h
          · exact .inl h
          · exact .inr (List.mem_cons_of_mem _ h)

/-- Writing inside the memory keeps it proper. -/
theorem Memory.Proper.writeAll {m : Memory} (a : Nat) (bs : List Byte) (h : Memory.Proper m)
    (hi : a + bs.length ≤ Config.memSize) : Memory.Proper (Memory.writeAll m a bs) := by
  refine ⟨Memory.wf_writeAll a bs h.1, ?_⟩
  have key : ∀ (bs : List Byte) (m : Memory) (a : Nat), (∀ c ∈ m, c.1 < Config.memSize) →
      a + bs.length ≤ Config.memSize → ∀ c ∈ Memory.writeAll m a bs, c.1 < Config.memSize := by
    intro bs
    induction bs with
    | nil => intro m a hm _; exact hm
    | cons b bs ih =>
      intro m a hm hl
      simp only [List.length_cons] at hl
      refine ih _ (a + 1) (fun c hc => ?_) (by omega)
      rcases Memory.mem_write hc with h | h
      · omega
      · exact hm c h
  exact key bs m a h.2 hi

/-! ### Reading after writing -/

/-- Reading after a write: the written byte at its address, the old byte elsewhere. -/
theorem Memory.read_write {m : Memory} (h : Memory.wf m = true) (a a' : Nat) (b : Byte) :
    Memory.read (Memory.write m a b) a' = if a' = a then b else Memory.read m a' := by
  have key : ∀ (m : Memory) (lo : Nat), Memory.wfFrom lo m = true →
      Memory.read (Memory.write m a b) a' = if a' = a then b else Memory.read m a' := by
    intro m
    induction m with
    | nil =>
      intro lo _
      simp only [Memory.write]
      split <;> simp_all [Memory.read]
    | cons c m ih =>
      intro lo h
      obtain ⟨c, d⟩ := c
      have h0 := h
      simp only [Memory.wfFrom, Bool.and_eq_true, decide_eq_true_eq] at h
      simp only [Memory.write]
      split
      · rename_i hlt
        split
        · rename_i hb
          by_cases e : a' = a
          · subst e
            simp only [if_true, hb]
            exact Memory.read_below (lo := c) (by simp [Memory.wfFrom, h]) hlt
          · simp [e]
        · simp only [Memory.read]
      · split
        · rename_i hne e
          subst e
          split
          · rename_i hb
            by_cases e : a' = a
            · subst e
              simp only [if_true, hb]
              exact Memory.read_below h.2 (by omega)
            · simp [Memory.read, e]
          · by_cases e : a' = a <;> simp [Memory.read, e]
        · rename_i hlt hne
          simp only [Memory.read]
          by_cases e : a' = c
          · subst e
            simp [Ne.symm hne]
          · simp only [e, if_false]
            exact ih _ h.2
  exact key m 0 h

/-- Reading after storing bytes at ascending addresses. -/
theorem Memory.read_writeAll {m : Memory} (h : Memory.wf m = true) (a : Nat) (bs : List Byte) (a' : Nat) :
    Memory.read (Memory.writeAll m a bs) a' =
      if a ≤ a' ∧ a' < a + bs.length then bs.getD (a' - a) 0#8 else Memory.read m a' := by
  induction bs generalizing m a with
  | nil =>
    rw [if_neg (by simp)]
    rfl
  | cons b bs ih =>
    simp only [Memory.writeAll]
    rw [ih (Memory.wf_write a b h), Memory.read_write h]
    simp only [List.length_cons]
    by_cases h1 : a + 1 ≤ a' ∧ a' < a + 1 + bs.length
    · rw [if_pos h1, if_pos (by omega)]
      have : a' - a = (a' - (a + 1)) + 1 := by omega
      rw [this, List.getD_cons_succ]
    · rw [if_neg h1]
      by_cases h2 : a' = a
      · subst h2
        simp
      · rw [if_neg h2, if_neg (by omega)]

/-! ### The checked accesses -/

/-- The range lies in the memory. -/
theorem firstOutside_none {a n : Nat} : firstOutside a n = none ↔ n = 0 ∨ a + n ≤ 4096 := by
  unfold firstOutside
  split <;> simp_all [Config.memSize]

/-- The range does not lie in the memory, and which address is reported. -/
theorem firstOutside_some {a n b : Nat} :
    firstOutside a n = some b ↔ (n ≠ 0 ∧ 4096 < a + n) ∧ b = max a 4096 := by
  unfold firstOutside
  split
  · simp_all [Config.memSize]
    omega
  · simp_all [Config.memSize, eq_comm]

/-- Everything a read of a range can do. -/
theorem State.readBytes_cases (s : State) (a n : Nat) :
    ((n = 0 ∨ a + n ≤ 4096) ∧ s.readBytes a n = .ok ((List.range n).map fun k => Memory.read s.mem (a + k))) ∨
    ((n ≠ 0 ∧ 4096 < a + n) ∧ s.readBytes a n = .error (max a 4096)) := by
  unfold State.readBytes
  split
  · rename_i b h
    obtain ⟨h1, rfl⟩ := firstOutside_some.mp h
    exact .inr ⟨h1, rfl⟩
  · rename_i h
    exact .inl ⟨firstOutside_none.mp h, rfl⟩

/-- Everything a store of a range can do. -/
theorem State.writeBytes_cases (s : State) (a : Nat) (bs : List Byte) :
    ((bs.length = 0 ∨ a + bs.length ≤ 4096) ∧
      s.writeBytes a bs = .ok { s with mem := Memory.writeAll s.mem a bs }) ∨
    ((bs.length ≠ 0 ∧ 4096 < a + bs.length) ∧ s.writeBytes a bs = .error (max a 4096)) := by
  unfold State.writeBytes
  split
  · rename_i b h
    obtain ⟨h1, rfl⟩ := firstOutside_some.mp h
    exact .inr ⟨h1, rfl⟩
  · rename_i h
    exact .inl ⟨firstOutside_none.mp h, rfl⟩

/-- Everything a read of one byte can do (20_memory.md R52). -/
theorem State.memRead_cases (s : State) (a : Nat) :
    (a ≤ 0xFFF ∧ s.memRead a = .ok (Memory.read s.mem a)) ∨ (0xFFF < a ∧ s.memRead a = .error a) := by
  unfold State.memRead
  split <;> rename_i h <;> simp only [Config.memSize] at h
  · exact .inl ⟨by omega, rfl⟩
  · exact .inr ⟨by omega, rfl⟩

/-- Everything a store of one byte can do (20_memory.md R53). -/
theorem State.memWrite_cases (s : State) (a : Nat) (b : Byte) :
    (a ≤ 0xFFF ∧ s.memWrite a b = .ok { s with mem := Memory.write s.mem a b }) ∨
    (0xFFF < a ∧ s.memWrite a b = .error a) := by
  unfold State.memWrite
  split <;> rename_i h <;> simp only [Config.memSize] at h
  · exact .inl ⟨by omega, rfl⟩
  · exact .inr ⟨by omega, rfl⟩

/-- A read of one byte as a range. -/
theorem State.readBytes_one (s : State) (a : Nat) : s.readBytes a 1 = (s.memRead a).map ([·]) := by
  rcases s.memRead_cases a with ⟨h, e⟩ | ⟨h, e⟩ <;> rcases s.readBytes_cases a 1 with ⟨h1, e1⟩ | ⟨h1, e1⟩ <;> rw [e, e1]
  · rfl
  · omega
  · omega
  · rw [show max a 4096 = a by omega]
    rfl

/-- A store of one byte as a range. -/
theorem State.writeBytes_one (s : State) (a : Nat) (b : Byte) : s.writeBytes a [b] = s.memWrite a b := by
  rcases s.memWrite_cases a b with ⟨h, e⟩ | ⟨h, e⟩ <;> rcases s.writeBytes_cases a [b] with ⟨h1, e1⟩ | ⟨h1, e1⟩ <;>
    rw [e, e1] <;> simp only [List.length_cons, List.length_nil] at h1
  · rfl
  · omega
  · omega
  · rw [show max a 4096 = a by omega]

/-- Everything a fetch can do (40_step_cycle.md R92). -/
theorem State.fetch_cases (s : State) :
    (s.pc.toNat ≤ 0xFFE ∧
      s.fetch = .ok (wordOfBytes (Memory.read s.mem s.pc.toNat) (Memory.read s.mem (s.pc.toNat + 1)))) ∨
    (0xFFE < s.pc.toNat ∧ s.fetch = .error (max s.pc.toNat 4096)) := by
  unfold State.fetch
  rcases s.memRead_cases s.pc.toNat with ⟨h, e⟩ | ⟨h, e⟩ <;>
    rcases s.memRead_cases (s.pc.toNat + 1) with ⟨h1, e1⟩ | ⟨h1, e1⟩ <;> rw [e, e1]
  · exact .inl ⟨by omega, rfl⟩
  · rw [show max s.pc.toNat 4096 = s.pc.toNat + 1 by omega]
    exact .inr ⟨by omega, rfl⟩
  · omega
  · rw [show max s.pc.toNat 4096 = s.pc.toNat by omega]
    exact .inr ⟨by omega, rfl⟩

end Sys2Proof.Machine
end

