-- ==== Sys2Proof/Laws/State.lean ====
section
/-! SUPPORT. One lemma per field per update of the state, and what the derived reads (V registers, keys, rnd) see
of an update. -/

namespace Sys2Proof.Machine

/-! ### setV -/

@[simp] theorem State.setV_mem (s : State) (x : Nibble) (b : Byte) : (s.setV x b).mem = s.mem := rfl
@[simp] theorem State.setV_v (s : State) (x : Nibble) (b : Byte) : (s.setV x b).v = s.v.set x.toNat b x.isLt := rfl
@[simp] theorem State.setV_i (s : State) (x : Nibble) (b : Byte) : (s.setV x b).i = s.i := rfl
@[simp] theorem State.setV_pc (s : State) (x : Nibble) (b : Byte) : (s.setV x b).pc = s.pc := rfl
@[simp] theorem State.setV_stack (s : State) (x : Nibble) (b : Byte) : (s.setV x b).stack = s.stack := rfl
@[simp] theorem State.setV_dt (s : State) (x : Nibble) (b : Byte) : (s.setV x b).dt = s.dt := rfl
@[simp] theorem State.setV_st (s : State) (x : Nibble) (b : Byte) : (s.setV x b).st = s.st := rfl
@[simp] theorem State.setV_fb (s : State) (x : Nibble) (b : Byte) : (s.setV x b).fb = s.fb := rfl
@[simp] theorem State.setV_run (s : State) (x : Nibble) (b : Byte) : (s.setV x b).run = s.run := rfl
@[simp] theorem State.setV_fault (s : State) (x : Nibble) (b : Byte) : (s.setV x b).fault = s.fault := rfl
@[simp] theorem State.setV_inputs (s : State) (x : Nibble) (b : Byte) : (s.setV x b).inputs = s.inputs := rfl
@[simp] theorem State.setV_drawn (s : State) (x : Nibble) (b : Byte) : (s.setV x b).drawn = s.drawn := rfl
@[simp] theorem State.setV_beeps (s : State) (x : Nibble) (b : Byte) : (s.setV x b).beeps = s.beeps := rfl

/-! ### setVF -/

@[simp] theorem State.setVF_mem (s : State) (b : Byte) : (s.setVF b).mem = s.mem := rfl
@[simp] theorem State.setVF_v (s : State) (b : Byte) : (s.setVF b).v = s.v.set vf.toNat b vf.isLt := rfl
@[simp] theorem State.setVF_i (s : State) (b : Byte) : (s.setVF b).i = s.i := rfl
@[simp] theorem State.setVF_pc (s : State) (b : Byte) : (s.setVF b).pc = s.pc := rfl
@[simp] theorem State.setVF_stack (s : State) (b : Byte) : (s.setVF b).stack = s.stack := rfl
@[simp] theorem State.setVF_dt (s : State) (b : Byte) : (s.setVF b).dt = s.dt := rfl
@[simp] theorem State.setVF_st (s : State) (b : Byte) : (s.setVF b).st = s.st := rfl
@[simp] theorem State.setVF_fb (s : State) (b : Byte) : (s.setVF b).fb = s.fb := rfl
@[simp] theorem State.setVF_run (s : State) (b : Byte) : (s.setVF b).run = s.run := rfl
@[simp] theorem State.setVF_fault (s : State) (b : Byte) : (s.setVF b).fault = s.fault := rfl
@[simp] theorem State.setVF_inputs (s : State) (b : Byte) : (s.setVF b).inputs = s.inputs := rfl
@[simp] theorem State.setVF_drawn (s : State) (b : Byte) : (s.setVF b).drawn = s.drawn := rfl
@[simp] theorem State.setVF_beeps (s : State) (b : Byte) : (s.setVF b).beeps = s.beeps := rfl

/-! ### advance -/

@[simp] theorem State.advance_mem (s : State) : (s.advance).mem = s.mem := rfl
@[simp] theorem State.advance_v (s : State) : (s.advance).v = s.v := rfl
@[simp] theorem State.advance_i (s : State) : (s.advance).i = s.i := rfl
@[simp] theorem State.advance_pc (s : State) : (s.advance).pc = s.pc + 2#16 := rfl
@[simp] theorem State.advance_stack (s : State) : (s.advance).stack = s.stack := rfl
@[simp] theorem State.advance_dt (s : State) : (s.advance).dt = s.dt := rfl
@[simp] theorem State.advance_st (s : State) : (s.advance).st = s.st := rfl
@[simp] theorem State.advance_fb (s : State) : (s.advance).fb = s.fb := rfl
@[simp] theorem State.advance_run (s : State) : (s.advance).run = s.run := rfl
@[simp] theorem State.advance_fault (s : State) : (s.advance).fault = s.fault := rfl
@[simp] theorem State.advance_inputs (s : State) : (s.advance).inputs = s.inputs := rfl
@[simp] theorem State.advance_drawn (s : State) : (s.advance).drawn = s.drawn := rfl
@[simp] theorem State.advance_beeps (s : State) : (s.advance).beeps = s.beeps := rfl

/-! ### skipIf -/

@[simp] theorem State.skipIf_mem (s : State) (c : Bool) : (s.skipIf c).mem = s.mem := rfl
@[simp] theorem State.skipIf_v (s : State) (c : Bool) : (s.skipIf c).v = s.v := rfl
@[simp] theorem State.skipIf_i (s : State) (c : Bool) : (s.skipIf c).i = s.i := rfl
@[simp] theorem State.skipIf_pc (s : State) (c : Bool) : (s.skipIf c).pc = s.pc + if c then 4#16 else 2#16 := rfl
@[simp] theorem State.skipIf_stack (s : State) (c : Bool) : (s.skipIf c).stack = s.stack := rfl
@[simp] theorem State.skipIf_dt (s : State) (c : Bool) : (s.skipIf c).dt = s.dt := rfl
@[simp] theorem State.skipIf_st (s : State) (c : Bool) : (s.skipIf c).st = s.st := rfl
@[simp] theorem State.skipIf_fb (s : State) (c : Bool) : (s.skipIf c).fb = s.fb := rfl
@[simp] theorem State.skipIf_run (s : State) (c : Bool) : (s.skipIf c).run = s.run := rfl
@[simp] theorem State.skipIf_fault (s : State) (c : Bool) : (s.skipIf c).fault = s.fault := rfl
@[simp] theorem State.skipIf_inputs (s : State) (c : Bool) : (s.skipIf c).inputs = s.inputs := rfl
@[simp] theorem State.skipIf_drawn (s : State) (c : Bool) : (s.skipIf c).drawn = s.drawn := rfl
@[simp] theorem State.skipIf_beeps (s : State) (c : Bool) : (s.skipIf c).beeps = s.beeps := rfl

/-! ### raise -/

@[simp] theorem State.raise_mem (s : State) (c : FaultCause) : (s.raise c).mem = s.mem := rfl
@[simp] theorem State.raise_v (s : State) (c : FaultCause) : (s.raise c).v = s.v := rfl
@[simp] theorem State.raise_i (s : State) (c : FaultCause) : (s.raise c).i = s.i := rfl
@[simp] theorem State.raise_pc (s : State) (c : FaultCause) : (s.raise c).pc = s.pc := rfl
@[simp] theorem State.raise_stack (s : State) (c : FaultCause) : (s.raise c).stack = s.stack := rfl
@[simp] theorem State.raise_dt (s : State) (c : FaultCause) : (s.raise c).dt = s.dt := rfl
@[simp] theorem State.raise_st (s : State) (c : FaultCause) : (s.raise c).st = s.st := rfl
@[simp] theorem State.raise_fb (s : State) (c : FaultCause) : (s.raise c).fb = s.fb := rfl
@[simp] theorem State.raise_run (s : State) (c : FaultCause) : (s.raise c).run = .faulted := rfl
@[simp] theorem State.raise_fault (s : State) (c : FaultCause) : (s.raise c).fault = some { cause := c, pc := s.pc } := rfl
@[simp] theorem State.raise_inputs (s : State) (c : FaultCause) : (s.raise c).inputs = s.inputs := rfl
@[simp] theorem State.raise_drawn (s : State) (c : FaultCause) : (s.raise c).drawn = s.drawn := rfl
@[simp] theorem State.raise_beeps (s : State) (c : FaultCause) : (s.raise c).beeps = s.beeps := rfl

/-! ### nextInput -/

@[simp] theorem State.nextInput_mem (s : State) : (s.nextInput).mem = s.mem := rfl
@[simp] theorem State.nextInput_v (s : State) : (s.nextInput).v = s.v := rfl
@[simp] theorem State.nextInput_i (s : State) : (s.nextInput).i = s.i := rfl
@[simp] theorem State.nextInput_pc (s : State) : (s.nextInput).pc = s.pc := rfl
@[simp] theorem State.nextInput_stack (s : State) : (s.nextInput).stack = s.stack := rfl
@[simp] theorem State.nextInput_dt (s : State) : (s.nextInput).dt = s.dt := rfl
@[simp] theorem State.nextInput_st (s : State) : (s.nextInput).st = s.st := rfl
@[simp] theorem State.nextInput_fb (s : State) : (s.nextInput).fb = s.fb := rfl
@[simp] theorem State.nextInput_run (s : State) : (s.nextInput).run = s.run := rfl
@[simp] theorem State.nextInput_fault (s : State) : (s.nextInput).fault = s.fault := rfl
@[simp] theorem State.nextInput_inputs (s : State) : (s.nextInput).inputs = s.inputs.tail := rfl
@[simp] theorem State.nextInput_drawn (s : State) : (s.nextInput).drawn = s.drawn + 1 := rfl
@[simp] theorem State.nextInput_beeps (s : State) : (s.nextInput).beeps = s.beeps := rfl

/-! ### tick -/

@[simp] theorem State.tick_mem (s : State) : (s.tick).mem = s.mem := rfl
@[simp] theorem State.tick_v (s : State) : (s.tick).v = s.v := rfl
@[simp] theorem State.tick_i (s : State) : (s.tick).i = s.i := rfl
@[simp] theorem State.tick_pc (s : State) : (s.tick).pc = s.pc := rfl
@[simp] theorem State.tick_stack (s : State) : (s.tick).stack = s.stack := rfl
@[simp] theorem State.tick_dt (s : State) : (s.tick).dt = if 0#8 < s.dt then s.dt - 1#8 else s.dt := rfl
@[simp] theorem State.tick_st (s : State) : (s.tick).st = if 0#8 < s.st then s.st - 1#8 else s.st := rfl
@[simp] theorem State.tick_fb (s : State) : (s.tick).fb = s.fb := rfl
@[simp] theorem State.tick_run (s : State) : (s.tick).run = s.run := rfl
@[simp] theorem State.tick_fault (s : State) : (s.tick).fault = s.fault := rfl
@[simp] theorem State.tick_inputs (s : State) : (s.tick).inputs = s.inputs := rfl
@[simp] theorem State.tick_drawn (s : State) : (s.tick).drawn = s.drawn := rfl
@[simp] theorem State.tick_beeps (s : State) : (s.tick).beeps = if s.st = 1#8 then s.beeps + 1 else s.beeps := rfl

/-! ### endStep -/

@[simp] theorem State.endStep_mem (s : State) : (s.endStep).mem = s.mem := rfl
@[simp] theorem State.endStep_v (s : State) : (s.endStep).v = s.v := rfl
@[simp] theorem State.endStep_i (s : State) : (s.endStep).i = s.i := rfl
@[simp] theorem State.endStep_pc (s : State) : (s.endStep).pc = s.pc := rfl
@[simp] theorem State.endStep_stack (s : State) : (s.endStep).stack = s.stack := rfl
@[simp] theorem State.endStep_dt (s : State) : (s.endStep).dt = if 0#8 < s.dt then s.dt - 1#8 else s.dt := rfl
@[simp] theorem State.endStep_st (s : State) : (s.endStep).st = if 0#8 < s.st then s.st - 1#8 else s.st := rfl
@[simp] theorem State.endStep_fb (s : State) : (s.endStep).fb = s.fb := rfl
@[simp] theorem State.endStep_run (s : State) : (s.endStep).run = s.run := rfl
@[simp] theorem State.endStep_fault (s : State) : (s.endStep).fault = s.fault := rfl
@[simp] theorem State.endStep_inputs (s : State) : (s.endStep).inputs = s.inputs.tail := rfl
@[simp] theorem State.endStep_drawn (s : State) : (s.endStep).drawn = s.drawn + 1 := rfl
@[simp] theorem State.endStep_beeps (s : State) : (s.endStep).beeps = if s.st = 1#8 then s.beeps + 1 else s.beeps := rfl

/-! ### V registers -/

theorem State.getV_setV (s : State) (x y : Nibble) (b : Byte) :
    (s.setV x b).getV y = if y = x then b else s.getV y := by
  simp only [State.getV, State.setV, Vector.getElem_set]
  by_cases h : y = x
  · simp [h]
  · have : x.toNat ≠ y.toNat := fun e => h (BitVec.eq_of_toNat_eq e.symm)
    simp [h, this]

@[simp] theorem State.getV_setV_self (s : State) (x : Nibble) (b : Byte) : (s.setV x b).getV x = b := by
  simp [State.getV_setV]

theorem State.getV_setV_ne (s : State) {x y : Nibble} (b : Byte) (h : y ≠ x) : (s.setV x b).getV y = s.getV y := by
  simp [State.getV_setV, h]

theorem State.getV_setVF (s : State) (y : Nibble) (b : Byte) :
    (s.setVF b).getV y = if y = vf then b else s.getV y := State.getV_setV s vf y b

/-- A read of a V register sees only the register file. -/
theorem State.getV_congr {s t : State} (h : s.v = t.v) (x : Nibble) : s.getV x = t.getV x := by
  simp [State.getV, h]

/-- Two register files that read alike are equal. -/
theorem State.v_ext {s t : State} (h : ∀ x, s.getV x = t.getV x) : s.v = t.v := by
  apply Vector.ext
  intro k hk
  have := h (BitVec.ofNat 4 k)
  simpa [State.getV, Nat.mod_eq_of_lt hk] using this

@[simp] theorem State.getV_advance (s : State) (x : Nibble) : (s.advance).getV x = s.getV x := rfl
@[simp] theorem State.getV_skipIf (s : State) (c : Bool) (x : Nibble) : (s.skipIf c).getV x = s.getV x := rfl
@[simp] theorem State.getV_raise (s : State) (c : FaultCause) (x : Nibble) : (s.raise c).getV x = s.getV x := rfl
@[simp] theorem State.getV_nextInput (s : State) (x : Nibble) : (s.nextInput).getV x = s.getV x := rfl
@[simp] theorem State.getV_tick (s : State) (x : Nibble) : (s.tick).getV x = s.getV x := rfl
@[simp] theorem State.getV_endStep (s : State) (x : Nibble) : (s.endStep).getV x = s.getV x := rfl

/-! ### The step's inputs -/

/-- What a step reads as its keys depends on the model's input fields alone. -/
theorem State.keys_congr {s t : State} (h : s.inputs = t.inputs) (h' : s.drawn = t.drawn) : s.keys = t.keys := by
  simp [State.keys, h, h']

/-- What a step reads as its random byte depends on the model's input fields alone. -/
theorem State.rnd_congr {s t : State} (h : s.inputs = t.inputs) (h' : s.drawn = t.drawn) : s.rnd = t.rnd := by
  simp [State.rnd, h, h']

theorem State.keys_listed (s : State) (u : StepInput) (us : List StepInput) (h : s.inputs = u :: us) :
    s.keys = u.keys := by simp [State.keys, h]

theorem State.rnd_listed (s : State) (u : StepInput) (us : List StepInput) (h : s.inputs = u :: us) :
    s.rnd = u.rnd := by simp [State.rnd, h]

/-! ### The timers, as numbers -/

/-- A timer counts down by one and stops at 0 (40_step_cycle.md R98). -/
theorem timer_down (b : Byte) : (if 0#8 < b then b - 1#8 else b).toNat = b.toNat - 1 := by
  by_cases h : 0#8 < b
  · have : 0 < b.toNat := by simpa [BitVec.lt_def] using h
    simp [h, BitVec.toNat_sub]
    omega
  · have : b.toNat = 0 := by
      have := h
      simp [BitVec.lt_def] at this
      simp [this]
    simp [h, this]

end Sys2Proof.Machine
end

