-- ==== Sys2Proof/Laws/Registers.lean ====
section
/-! SUPPORT. Runs of registers: loading bytes into V0.. and listing V0..VX. -/

namespace Sys2Proof.Machine

/-- Loading bytes from register number `k` on: the register file afterwards. -/
theorem getElem_setRegs (bs : List Byte) : ∀ (v : Vector Byte 16) (k r : Nat) (hr : r < 16),
    (setRegs v k bs)[r] = if k ≤ r ∧ r < k + bs.length then bs.getD (r - k) 0#8 else v[r] := by
  induction bs with
  | nil =>
    intro v k r hr
    rw [if_neg (by simp only [List.length_nil]; omega)]
    rfl
  | cons b bs ih =>
    intro v k r hr
    simp only [setRegs, ih, List.length_cons, Vector.getElem_setIfInBounds]
    by_cases h : k = r
    · subst h
      rw [if_neg (by omega), if_pos (by omega)]
      simp
    · rw [if_neg h]
      by_cases h1 : k + 1 ≤ r ∧ r < k + 1 + bs.length
      · rw [if_pos h1, if_pos (by omega), show r - k = (r - (k + 1)) + 1 by omega, List.getD_cons_succ]
      · rw [if_neg h1, if_neg (by omega)]

/-- What a V register reads after FX65's loads. -/
theorem getV_setRegs (s : State) (bs : List Byte) (r : Nibble) :
    State.getV { s with v := setRegs s.v 0 bs } r =
      if r.toNat < bs.length then bs.getD r.toNat 0#8 else s.getV r := by
  simp only [State.getV, getElem_setRegs, Nat.zero_le, true_and, Nat.zero_add, Nat.sub_zero]

@[simp] theorem length_regsTo (s : State) (x : Nibble) : (s.regsTo x).length = x.toNat + 1 := by
  have := x.isLt
  simp [State.regsTo]
  omega

/-- Byte number `k` of V0..VX is VK. -/
theorem getD_regsTo (s : State) (x k : Nibble) (h : k.toNat ≤ x.toNat) :
    (s.regsTo x).getD k.toNat 0#8 = s.getV k := by
  have := k.isLt
  have h2 : k.toNat < (s.regsTo x).length := by rw [length_regsTo]; omega
  rw [List.getD_eq_getElem _ _ h2]
  simp [State.regsTo, State.getV]

end Sys2Proof.Machine
end

