-- ==== Sys2Proof/Laws/Exec.lean ====
section
/-! SUPPORT. What each shared operation of the meanings can answer, what any instruction can answer, and what a step
can answer. -/

namespace Sys2Proof.Machine

@[simp] theorem raise_eq_afterFault (s : State) (c : FaultCause) : s.raise c = s.afterFault c := rfl

@[simp] theorem opcodeOf_eq_withFields (w : Word) : opcodeOf w = withFields w := rfl

/-! ### Shared operations -/

/-- Everything a store at I can do. -/
theorem State.storeAtI_cases (s : State) (j : Instr) (bs : List Byte) :
    ((bs.length = 0 ∨ s.i.toNat + bs.length ≤ 4096) ∧
      s.storeAtI j bs = .next (State.advance { s with mem := Memory.writeAll s.mem s.i.toNat bs })) ∨
    ((bs.length ≠ 0 ∧ 4096 < s.i.toNat + bs.length) ∧
      s.storeAtI j bs = faultWith s (dataFault j .write (max s.i.toNat 4096))) := by
  unfold State.storeAtI
  rcases s.writeBytes_cases s.i.toNat bs with ⟨h, e⟩ | ⟨h, e⟩ <;> rw [e]
  · exact .inl ⟨h, rfl⟩
  · exact .inr ⟨h, rfl⟩

/-- Everything a key skip can do. -/
theorem State.skipOnKey_cases (s : State) (j : Instr) (x : Nibble) (want : Bool) :
    ((s.getV x).toNat ≤ 15 ∧
      s.skipOnKey j x want = .next (s.skipIf (keyDown s.keys ((s.getV x).setWidth 4) == want))) ∨
    (15 < (s.getV x).toNat ∧
      s.skipOnKey j x want = faultWith s (.invalidKey (s.getV x) (opcodeOf (encode j)))) := by
  unfold State.skipOnKey
  split
  · rename_i h
    exact .inr ⟨h, rfl⟩
  · rename_i h
    exact .inl ⟨by omega, rfl⟩

/-- Everything FX65 can do. -/
theorem execLdVxMem_cases (x : Nibble) (s : State) :
    (s.i.toNat + x.toNat ≤ 0xFFF ∧
      execLdVxMem x s = .next (State.advance { s with
        v := setRegs s.v 0 ((List.range (x.toNat + 1)).map fun k => Memory.read s.mem (s.i.toNat + k)) })) ∨
    (0xFFF < s.i.toNat + x.toNat ∧
      execLdVxMem x s = faultWith s (dataFault (.ldVxMem x) .read (max s.i.toNat 4096))) := by
  unfold execLdVxMem
  rcases s.readBytes_cases s.i.toNat (x.toNat + 1) with ⟨h, e⟩ | ⟨h, e⟩ <;> rw [e]
  · exact .inl ⟨by omega, rfl⟩
  · exact .inr ⟨by omega, rfl⟩

/-- Everything DXYN can do. -/
theorem execDrw_cases (x y n : Nibble) (s : State) :
    ((n.toNat = 0 ∨ s.i.toNat + n.toNat - 1 ≤ 0xFFF) ∧
      ∃ d, d = drawSprite s.fb (startColumn (s.getV x)) (startRow (s.getV y))
          ((List.range n.toNat).map fun k => Memory.read s.mem (s.i.toNat + k)) ∧
        execDrw x y n s = .next (State.advance (State.setVF { s with fb := d.fb } (collisionFlag d.collided)))) ∨
    ((n.toNat ≠ 0 ∧ 0xFFF < s.i.toNat + n.toNat - 1) ∧
      execDrw x y n s = faultWith s (dataFault (.drw x y n) .read (max s.i.toNat 4096))) := by
  unfold execDrw
  rcases s.readBytes_cases s.i.toNat n.toNat with ⟨h, e⟩ | ⟨h, e⟩ <;> rw [e]
  · exact .inl ⟨by omega, _, rfl, rfl⟩
  · exact .inr ⟨by omega, rfl⟩

/-- Everything 00EE can do. -/
theorem execRet_cases (s : State) :
    (s.stack = [] ∧ execRet s = faultWith s (.stackUnderflow (opcodeOf (encode .ret)))) ∨
    ∃ rest t, s.stack = rest ++ [t] ∧ execRet s = .next { s with stack := rest, pc := t } := by
  unfold execRet
  rcases List.eq_nil_or_concat s.stack with h | ⟨rest, t, h⟩
  · exact .inl ⟨h, by simp [h]⟩
  · exact .inr ⟨rest, t, by simpa using h, by simp [h]⟩

/-- The masks of DXYN's coordinates are remainders. -/
theorem startColumn_eq (b : Byte) : startColumn b = b.toNat % 64 := by
  simpa [startColumn] using Nat.and_two_pow_sub_one_eq_mod b.toNat 6

theorem startRow_eq (b : Byte) : startRow b = b.toNat % 32 := by
  simpa [startRow] using Nat.and_two_pow_sub_one_eq_mod b.toNat 5

/-- FX33's digits as numbers. -/
theorem decimalDigits_eq (b : Byte) :
    decimalDigits b = [BitVec.ofNat 8 (b.toNat / 100), BitVec.ofNat 8 (b.toNat / 10 % 10), BitVec.ofNat 8 (b.toNat % 10)] := by
  revert b
  decide

/-! ### Any instruction -/

/-- What any instruction answers: where its check passes, a next state that is Running or newly Blocked, has the fault
record and the inputs as they were and has emitted nothing; else the entry of a fault. -/
theorem exec_cases (i : Instr) (s : State) :
    (SafeInstr s i ∧ ∃ t, exec i s = .next t ∧ (t.run = s.run ∨ ∃ x, t.run = .blocked x) ∧
      t.fault = s.fault ∧ t.inputs = s.inputs ∧ t.drawn = s.drawn ∧ t.beeps = s.beeps) ∨
    (¬ SafeInstr s i ∧ ∃ c, exec i s = .next (s.afterFault c)) := by
  cases i
  case ret =>
    rcases execRet_cases s with ⟨h, e⟩ | ⟨rest, t, h, e⟩
    · exact .inr ⟨by simpa [SafeInstr] using h, _, e⟩
    · exact .inl ⟨by simp [SafeInstr, h], _, e, by simp⟩
  case drw x y n =>
    rcases execDrw_cases x y n s with ⟨h, d, _, e⟩ | ⟨h, e⟩
    · exact .inl ⟨h, _, e, by simp⟩
    · exact .inr ⟨by simp only [SafeInstr]; omega, _, e⟩
  case ldB x =>
    rcases s.storeAtI_cases (.ldB x) (decimalDigits (s.getV x)) with ⟨h, e⟩ | ⟨h, e⟩ <;>
      simp only [decimalDigits, List.length_cons, List.length_nil] at h
    · exact .inl ⟨by simp only [SafeInstr]; omega, _, e, by simp⟩
    · exact .inr ⟨by simp only [SafeInstr]; omega, _, e⟩
  case ldMemVx x =>
    rcases s.storeAtI_cases (.ldMemVx x) (s.regsTo x) with ⟨h, e⟩ | ⟨h, e⟩ <;> simp only [length_regsTo] at h
    · exact .inl ⟨by simp only [SafeInstr]; omega, _, e, by simp⟩
    · exact .inr ⟨by simp only [SafeInstr]; omega, _, e⟩
  case ldVxMem x =>
    rcases execLdVxMem_cases x s with ⟨h, e⟩ | ⟨h, e⟩
    · exact .inl ⟨h, _, e, by simp⟩
    · exact .inr ⟨by simp only [SafeInstr]; omega, _, e⟩
  case skp x =>
    rcases s.skipOnKey_cases (.skp x) x true with ⟨h, e⟩ | ⟨h, e⟩
    · exact .inl ⟨h, _, e, by simp⟩
    · exact .inr ⟨by simp only [SafeInstr]; omega, _, e⟩
  case sknp x =>
    rcases s.skipOnKey_cases (.sknp x) x false with ⟨h, e⟩ | ⟨h, e⟩
    · exact .inl ⟨h, _, e, by simp⟩
    · exact .inr ⟨by simp only [SafeInstr]; omega, _, e⟩
  case ldVxK x => exact .inl ⟨trivial, _, rfl, .inr ⟨x, rfl⟩, rfl, rfl, rfl, rfl⟩
  all_goals exact .inl ⟨trivial, _, rfl, .inl rfl, rfl, rfl, rfl, rfl⟩

/-! ### Any step -/

/-- What a step answers, by the run state, the fetch and the decoding (40_step_cycle.md R91). -/
theorem step_cases (s : State) :
    (s.run = .faulted ∧ step s = .next s) ∨
    (∃ x, s.run = .blocked x ∧ step s = .next (s.poll x).endStep) ∨
    (s.run = .running ∧ 0xFFE < s.pc.toNat ∧
      step s = .next (s.afterFault (.memoryOutOfBounds (max s.pc.toNat 4096) .fetch none))) ∨
    (∃ w, s.run = .running ∧ s.pc.toNat ≤ 0xFFE ∧ s.fetch = .ok w ∧ decode w = none ∧
      step s = .next (s.afterFault (.unimplementedInstruction (withFields w)))) ∨
    (∃ w i c, s.run = .running ∧ s.pc.toNat ≤ 0xFFE ∧ s.fetch = .ok w ∧ decode w = some i ∧
      ¬ SafeInstr s i ∧ exec i s = .next (s.afterFault c) ∧ step s = .next (s.afterFault c)) ∨
    (∃ w i t, s.run = .running ∧ s.pc.toNat ≤ 0xFFE ∧ s.fetch = .ok w ∧ decode w = some i ∧
      SafeInstr s i ∧ exec i s = .next t ∧ (t.run = .running ∨ ∃ x, t.run = .blocked x) ∧ t.fault = s.fault ∧
      t.inputs = s.inputs ∧ t.drawn = s.drawn ∧ t.beeps = s.beeps ∧ step s = .next t.endStep) := by
  unfold step stepWith
  split
  · rename_i h
    exact .inl ⟨h, rfl⟩
  · rename_i x h
    exact .inr (.inl ⟨x, h, rfl⟩)
  · rename_i hr
    refine .inr (.inr ?_)
    unfold runStep
    rcases s.fetch_cases with ⟨h, e⟩ | ⟨h, e⟩
    · simp only [e]
      generalize wordOfBytes _ _ = w at e
      cases hd : decode w with
      | none => exact .inr (.inl ⟨w, hr, h, rfl, hd, rfl⟩)
      | some i =>
        rcases exec_cases i s with ⟨hs, t, he, hrun, hf⟩ | ⟨hs, c, he⟩
        · rw [hr] at hrun
          have : t.run ≠ .faulted := by rcases hrun with h | ⟨x, h⟩ <;> simp [h]
          exact .inr (.inr (.inr ⟨w, i, t, hr, h, rfl, hd, hs, he, hrun, hf.1, hf.2.1, hf.2.2.1, hf.2.2.2,
            by simp [he, finishStep, this]⟩))
        · exact .inr (.inr (.inl ⟨w, i, c, hr, h, rfl, hd, hs, he, by simp [he, finishStep, State.afterFault]⟩))
    · simp only [e]
      exact .inl ⟨hr, h, rfl⟩

end Sys2Proof.Machine
end

