-- ==== Sys2Proof/Laws/Frames.lean ====
section
/-! SUPPORT. Frames: an update leaves unchanged what it does not name. One spec lemma for each shared shape of a
meaning. -/

namespace Sys2Proof.Machine

/-- Nothing changes. -/
theorem State.Frame.refl (s : State) (ps : List Place) : s.Frame s ps :=
  ⟨fun p _ => by cases p <;> simp [State.SameAt], rfl, rfl, rfl, rfl⟩

/-- Only V registers (those listed) and the program counter change. -/
theorem State.frame_regs {s t : State} {rs : List Nibble} (hv : ∀ r, r ∉ rs → t.getV r = s.getV r)
    (h : t = { s with v := t.v, pc := t.pc }) : s.Frame t (rs.map .v) := by
  refine ⟨fun p hp => ?_, by rw [h], by rw [h], by rw [h], by rw [h]⟩
  cases p with
  | v x => exact hv x fun hx => hp (List.mem_map_of_mem hx)
  | i => simp only [State.SameAt]; rw [h]
  | stack => simp only [State.SameAt]; rw [h]
  | dt => simp only [State.SameAt]; rw [h]
  | st => simp only [State.SameAt]; rw [h]
  | fb => simp only [State.SameAt]; rw [h]
  | run => simp only [State.SameAt]; rw [h]
  | mem => intro a; rw [h]

/-- Only the program counter changes. -/
theorem State.frame_pc (s : State) (p : Word) : s.Frame { s with pc := p } [] := State.frame_regs (rs := []) (fun _ _ => rfl) rfl

/-- The shape of the arithmetic instructions: VX takes the result, PC moves by 2 and nothing else changes. -/
theorem State.result_spec (s : State) (x : Nibble) (b : Byte) :
    ∃ t, s.result x b = .next t ∧ t.getV x = b ∧ t.pc = s.pc + 2#16 ∧ s.Frame t [.v x] :=
  ⟨_, rfl, by simp, rfl, State.frame_regs (rs := [x])
    (fun r hr => by simpa using State.getV_setV_ne s b (by simpa using hr)) rfl⟩

/-- The shape of the skips: PC moves by 4 where the condition holds and by 2 elsewhere, and nothing else changes. -/
theorem State.skipIf_spec (s : State) (c : Bool) :
    (s.skipIf c).pc = (if c = true then s.pc + 4#16 else s.pc + 2#16) ∧ s.Frame (s.skipIf c) [] := by
  refine ⟨?_, State.frame_pc s _⟩
  cases c <;> rfl

/-- Only the memory and the program counter change. -/
theorem State.frame_mem (s : State) (m : Memory) (p : Word) : s.Frame { s with mem := m, pc := p } [.mem] :=
  ⟨fun q hq => by cases q <;> first | rfl | exact absurd hq (by simp), rfl, rfl, rfl, rfl⟩

end Sys2Proof.Machine
end

