-- ==== Sys2Proof/Laws/Host.lean ====
section
/-! SUPPORT. What the host operations of HostOps.lean can answer. -/

namespace Sys2Proof.Machine

/-- The memory after a load that does not fit is a store of 4016 bytes at 0x050. -/
theorem State.overlongMemory_eq (s : State) (rom : List Byte) :
    ∃ bs, bs.length = 4016 ∧ s.overlongMemory rom = Memory.writeAll s.mem 80 bs := ⟨_, Vector.length_toList, rfl⟩

/-- Everything a load can do: the font and the ROM are placed, or the ROM is too long for the memory. -/
theorem State.loadWith_cases (s : State) (font : Vector Byte 80) (rom : List Byte) :
    (rom.length ≤ 3584 ∧ s.loadWith font rom =
      { s with mem := Memory.writeAll (Memory.writeAll s.mem 0x050 font.toList) 0x200 rom, pc := 0x200#16 }) ∨
    (3584 < rom.length ∧ s.loadWith font rom =
      State.raiseOnce { s with mem := s.overlongMemory rom } (.memoryOutOfBounds 0x1000 .load none)) := by
  unfold State.loadWith
  cases h : firstOutside Config.romOrigin.toNat rom.length with
  | none =>
    rw [firstOutside_none, show Config.romOrigin.toNat = 512 from rfl] at h
    exact .inl ⟨by omega, rfl⟩
  | some bad =>
    rw [firstOutside_some, show Config.romOrigin.toNat = 512 from rfl] at h
    obtain ⟨h, rfl⟩ := h
    exact .inr ⟨by omega, rfl⟩

end Sys2Proof.Machine
end

