-- ==== Sys2Proof/Laws/Keypad.lean ====
section
/-! SUPPORT. The keypad queries. -/

namespace Sys2Proof.Machine

theorem mem_allKeys (k : Nibble) : k ∈ allKeys := by
  simp only [allKeys, List.mem_map]
  exact ⟨k.toFin, List.mem_finRange _, by simp⟩

/-- Every key has its place in KEY_ORDER. -/
theorem mem_keyOrder (k : Nibble) : k ∈ Config.keyOrder := by
  simp only [Config.keyOrder, List.mem_map]
  exact ⟨Config.keyPermutation.symm k.toFin, List.mem_finRange _, by simp⟩

/-- A query answers a key only if it is held. -/
theorem anyKey_held {keys : BitVec 16} {k : Nibble} (h : anyKey keys = some k) : keyDown keys k = true := by
  unfold anyKey anyKeyIn at h
  split at h
  · exact absurd h (by simp)
  · rename_i k' e
    have : k' ∈ allKeys.filter (keyDown keys) := by rw [e]; simp
    obtain rfl : k' = k := by simpa using h
    exact (List.mem_filter.mp this).2
  · exact List.find?_some h

end Sys2Proof.Machine
end

