-- ==== Sys2Proof/Laws/PerInstr.lean ====
section
/-! SUPPORT. A fact for all instructions, one lemma per constructor: the word of an instruction selects the
instruction's own row of the opcode map (30_encoding.md R74). -/

namespace Sys2Proof.Laws.WordSelectsRow

/-- The word of the instruction selects its row. -/
def Statement (i : Instr) : Prop := (rowOf i).selects (encode i) = true

theorem nnn_selects (c : Nibble) (nnn : Addr12) :
    (OpRow.mk (0xF#4 ++ 0#12) (c ++ 0#12)).selects (c ++ nnn) = true := by
  simp only [OpRow.selects, mask_nnn, beq_iff_eq, BitVec.and_zero]
  rw [show c &&& 15#4 = c from BitVec.and_allOnes]

theorem xnn_selects (c x : Nibble) (nn : Byte) :
    (OpRow.mk (0xF#4 ++ 0#4 ++ 0#8) (c ++ 0#4 ++ 0#8)).selects (c ++ x ++ nn) = true := by
  simp only [OpRow.selects, mask_xnn, beq_iff_eq, BitVec.and_zero]
  rw [show c &&& 15#4 = c from BitVec.and_allOnes]

theorem x_selects (c x : Nibble) (nn : Byte) :
    (OpRow.mk (0xF#4 ++ 0#4 ++ 0xFF#8) (c ++ 0#4 ++ nn)).selects (c ++ x ++ nn) = true := by
  simp only [OpRow.selects, mask_xnn, beq_iff_eq, BitVec.and_zero]
  rw [show c &&& 15#4 = c from BitVec.and_allOnes, show nn &&& 255#8 = nn from BitVec.and_allOnes]

theorem xy_selects (c x y n : Nibble) :
    (OpRow.mk (0xF#4 ++ 0#4 ++ 0#4 ++ 0xF#4) (c ++ 0#4 ++ 0#4 ++ n)).selects (c ++ x ++ y ++ n) = true := by
  simp only [OpRow.selects, mask_xyn, beq_iff_eq, BitVec.and_zero]
  rw [show c &&& 15#4 = c from BitVec.and_allOnes, show n &&& 15#4 = n from BitVec.and_allOnes]

theorem xyn_selects (c x y n : Nibble) :
    (OpRow.mk (0xF#4 ++ 0#4 ++ 0#4 ++ 0#4) (c ++ 0#4 ++ 0#4 ++ 0#4)).selects (c ++ x ++ y ++ n) = true := by
  simp only [OpRow.selects, mask_xyn, beq_iff_eq, BitVec.and_zero]
  rw [show c &&& 15#4 = c from BitVec.and_allOnes]

theorem cls : Statement .cls := by unfold Statement; decide
theorem ret : Statement .ret := by unfold Statement; decide
theorem jp (nnn : Addr12) : Statement (.jp nnn) := nnn_selects _ _
theorem call (nnn : Addr12) : Statement (.call nnn) := nnn_selects _ _
theorem seImm (x : Nibble) (nn : Byte) : Statement (.seImm x nn) := xnn_selects _ _ _
theorem sneImm (x : Nibble) (nn : Byte) : Statement (.sneImm x nn) := xnn_selects _ _ _
theorem seReg (x y : Nibble) : Statement (.seReg x y) := xy_selects _ _ _ _
theorem sneReg (x y : Nibble) : Statement (.sneReg x y) := xy_selects _ _ _ _
theorem ldImm (x : Nibble) (nn : Byte) : Statement (.ldImm x nn) := xnn_selects _ _ _
theorem addImm (x : Nibble) (nn : Byte) : Statement (.addImm x nn) := xnn_selects _ _ _
theorem ldReg (x y : Nibble) : Statement (.ldReg x y) := xy_selects _ _ _ _
theorem orReg (x y : Nibble) : Statement (.orReg x y) := xy_selects _ _ _ _
theorem andReg (x y : Nibble) : Statement (.andReg x y) := xy_selects _ _ _ _
theorem xorReg (x y : Nibble) : Statement (.xorReg x y) := xy_selects _ _ _ _
theorem addReg (x y : Nibble) : Statement (.addReg x y) := xy_selects _ _ _ _
theorem subReg (x y : Nibble) : Statement (.subReg x y) := xy_selects _ _ _ _
theorem shr (x y : Nibble) : Statement (.shr x y) := xy_selects _ _ _ _
theorem shl (x y : Nibble) : Statement (.shl x y) := xy_selects _ _ _ _
theorem ldI (nnn : Addr12) : Statement (.ldI nnn) := nnn_selects _ _
theorem rnd (x : Nibble) (nn : Byte) : Statement (.rnd x nn) := xnn_selects _ _ _
theorem drw (x y n : Nibble) : Statement (.drw x y n) := xyn_selects _ _ _ _
theorem skp (x : Nibble) : Statement (.skp x) := x_selects _ _ _
theorem sknp (x : Nibble) : Statement (.sknp x) := x_selects _ _ _
theorem ldVxDt (x : Nibble) : Statement (.ldVxDt x) := x_selects _ _ _
theorem ldVxK (x : Nibble) : Statement (.ldVxK x) := x_selects _ _ _
theorem ldDtVx (x : Nibble) : Statement (.ldDtVx x) := x_selects _ _ _
theorem ldStVx (x : Nibble) : Statement (.ldStVx x) := x_selects _ _ _
theorem addI (x : Nibble) : Statement (.addI x) := x_selects _ _ _
theorem ldF (x : Nibble) : Statement (.ldF x) := x_selects _ _ _
theorem ldB (x : Nibble) : Statement (.ldB x) := x_selects _ _ _
theorem ldMemVx (x : Nibble) : Statement (.ldMemVx x) := x_selects _ _ _
theorem ldVxMem (x : Nibble) : Statement (.ldVxMem x) := x_selects _ _ _

end Sys2Proof.Laws.WordSelectsRow
end

