-- ==== Sys2Proof/Machine/Assembly.lean ====
section
/-! DEFINITION. The assembler syntax of 30_encoding.md R79, as the text of an instruction. The spelling is the spec's own
(decision D25); how many digits a number is written with is the model's choice (log entry 17). -/

namespace Sys2Proof.Machine

/-- One hexadecimal digit. -/
def hexDigit (d : Nat) : Char := if d < 10 then Char.ofNat (48 + d) else Char.ofNat (55 + d)

/-- The last `k` hexadecimal digits of a number, first the highest. -/
def hexDigits : Nat → Nat → List Char
  | 0, _ => []
  | k + 1, n => hexDigits k (n / 16) ++ [hexDigit (n % 16)]

/-- A number of `k` hexadecimal digits with its prefix. -/
def hexNumber (k n : Nat) : String := "0x" ++ String.ofList (hexDigits k n)

/-- `V0` to `VF`. -/
def regName (x : Nibble) : String := "V" ++ String.ofList [hexDigit x.toNat]

/-- Two operands. -/
def twoOperands (mnemonic a b : String) : String := mnemonic ++ " " ++ a ++ ", " ++ b

/-- The text of an instruction (30_encoding.md R74, R79). -/
def assembly : Instr → String
  | .cls => "CLS"
  | .ret => "RET"
  | .jp nnn => "JP " ++ hexNumber 3 nnn.toNat
  | .call nnn => "CALL " ++ hexNumber 3 nnn.toNat
  | .seImm x nn => twoOperands "SE" (regName x) (hexNumber 2 nn.toNat)
  | .sneImm x nn => twoOperands "SNE" (regName x) (hexNumber 2 nn.toNat)
  | .seReg x y => twoOperands "SE" (regName x) (regName y)
  | .sneReg x y => twoOperands "SNE" (regName x) (regName y)
  | .ldImm x nn => twoOperands "LD" (regName x) (hexNumber 2 nn.toNat)
  | .addImm x nn => twoOperands "ADD" (regName x) (hexNumber 2 nn.toNat)
  | .ldReg x y => twoOperands "LD" (regName x) (regName y)
  | .orReg x y => twoOperands "OR" (regName x) (regName y)
  | .andReg x y => twoOperands "AND" (regName x) (regName y)
  | .xorReg x y => twoOperands "XOR" (regName x) (regName y)
  | .addReg x y => twoOperands "ADD" (regName x) (regName y)
  | .subReg x y => twoOperands "SUB" (regName x) (regName y)
  | .shr x _ => "SHR " ++ regName x
  | .shl x _ => "SHL " ++ regName x
  | .ldI nnn => twoOperands "LD" "I" (hexNumber 3 nnn.toNat)
  | .rnd x nn => twoOperands "RND" (regName x) (hexNumber 2 nn.toNat)
  | .drw x y n => twoOperands "DRW" (regName x) (regName y) ++ ", " ++ hexNumber 1 n.toNat
  | .skp x => "SKP " ++ regName x
  | .sknp x => "SKNP " ++ regName x
  | .ldVxDt x => twoOperands "LD" (regName x) "DT"
  | .ldVxK x => twoOperands "LD" (regName x) "K"
  | .ldDtVx x => twoOperands "LD" "DT" (regName x)
  | .ldStVx x => twoOperands "LD" "ST" (regName x)
  | .addI x => twoOperands "ADD" "I" (regName x)
  | .ldF x => twoOperands "LD" "F" (regName x)
  | .ldB x => twoOperands "LD" "B" (regName x)
  | .ldMemVx x => twoOperands "LD" "[I]" (regName x)
  | .ldVxMem x => twoOperands "LD" (regName x) "[I]"

/-- The line that places one data byte. -/
def dataLine (b : Byte) : String := "DB " ++ hexNumber 2 b.toNat

end Sys2Proof.Machine
end

