-- ==== Sys2Proof/Tests/Slice0.lean ====
section
/-! SUPPORT. Tests. The expected results are the vectors of 95_test_vectors.md (named V-... in the comments) or words
written out from 30_encoding.md R74. Then one witness for each statement with hypotheses, with the clause it meets. -/

open Sys2Proof Sys2Proof.Machine

namespace Sys2Proof.Tests

/-- What is seen of the next state of an outcome. -/
def seen {α : Type} (o : Outcome) (f : State → α) : Option α :=
  match o with
  | .next t => some (f t)
  | _ => none

/-- A state with registers written. -/
def regs (l : List (Nibble × Byte)) (s : State) : State := l.foldl (fun t p => t.setV p.1 p.2) s

/-- One step after power-on with a word at 0x200 and the given changes to the state. -/
def run1 (w : Nat) (f : State → State) : Outcome := step ((f State.reset).withFetchWord 16 w)

/-- The cause of a faulted state. -/
def causeOf (t : State) : Option FaultCause := t.fault.map (·.cause)

/-! ### Decoding: words written out from 30_encoding.md R74, one for each row -/

theorem test_decode_control :
    [0x00EE, 0x1ABC, 0x2ABC, 0x3A42, 0x4A42, 0x5AB0, 0x9AB0].map (decodeTableWord 16) =
    [some .ret, some (.jp 0xABC), some (.call 0xABC), some (.seImm 0xA 0x42), some (.sneImm 0xA 0x42),
     some (.seReg 0xA 0xB), some (.sneReg 0xA 0xB)] := by decide

theorem test_decode_arith :
    [0x6A42, 0x7A42, 0x8AB0, 0x8AB1, 0x8AB2, 0x8AB3].map (decodeTableWord 16) =
    [some (.ldImm 0xA 0x42), some (.addImm 0xA 0x42), some (.ldReg 0xA 0xB), some (.orReg 0xA 0xB),
     some (.andReg 0xA 0xB), some (.xorReg 0xA 0xB)] := by decide

theorem test_decode_arith2 :
    [0x8AB4, 0x8AB5, 0x8AB6, 0x8ABE, 0xCA42].map (decodeTableWord 16) =
    [some (.addReg 0xA 0xB), some (.subReg 0xA 0xB), some (.shr 0xA 0xB), some (.shl 0xA 0xB),
     some (.rnd 0xA 0x42)] := by decide

theorem test_decode_index :
    [0xAABC, 0xF11E, 0xF129, 0xF133, 0xF255, 0xF265].map (decodeTableWord 16) =
    [some (.ldI 0xABC), some (.addI 1), some (.ldF 1), some (.ldB 1), some (.ldMemVx 2), some (.ldVxMem 2)] := by
  decide

theorem test_decode_display_key_timer :
    [0x00E0, 0xD5A3, 0xE29E, 0xE2A1, 0xF107, 0xF30A, 0xF115, 0xF118].map (decodeTableWord 16) =
    [some .cls, some (.drw 5 0xA 3), some (.skp 2), some (.sknp 2), some (.ldVxDt 1), some (.ldVxK 3),
     some (.ldDtVx 1), some (.ldStVx 1)] := by decide

/-- Section 2.6 of the vectors: illegal words. -/
theorem test_decode_illegal :
    [0x0000, 0x0001, 0x00E1, 0x00ED, 0x01E0, 0x5001, 0x8007, 0x8128, 0x812F, 0x9001, 0xB200].map (decodeTableWord 16) ++
    [0xE000, 0xE09F, 0xE0A0, 0xF000, 0xF106, 0xF10B, 0xF119, 0xF175, 0xF1FF].map (decodeTableWord 16) =
    List.replicate 20 none := by decide

/-- The bytes decoder: the first byte is the high one, and rejections name their reason. -/
theorem test_decode_bytes :
    decodeBytes [0xD5, 0xA3, 0x12] = .instr (.drw 5 0xA 3) [0x12] ∧
    decodeBytes [0x51, 0x21] = .rejected (.unimplementedInstruction 0x5121) ∧
    decodeBytes [0x00] = .rejected .truncated := by decide

/-- S13: the fields of 0xD5A3. -/
theorem test_fields :
    fieldsOf 0xD5A3 = { cls := 0xD, x := 5, y := 0xA, n := 3, nn := 0xA3, nnn := 0x5A3 } := by decide

/-- Each check of WellFormed refuses an ill-formed term. -/
theorem test_wellFormed_refuses :
    Fields.nnAgrees { cls := 0xD, x := 5, y := 0xA, n := 3, nn := 0xA4, nnn := 0x5A3 } = false ∧
    Fields.nnnAgrees { cls := 0xD, x := 5, y := 0xA, n := 3, nn := 0xA3, nnn := 0x6A3 } = false ∧
    Fields.wellFormed (fieldsOf 0xD5A3) = true := by decide

/-- The fixed bits of a row are inside its mask. -/
theorem test_rows : opcodeRows.all (fun r => r.pattern &&& r.mask == r.pattern) = true ∧ opcodeRows.Nodup := by decide

/-- Every row is selected by its word with all operand bits 0 and by its word with all operand bits 1: the hypotheses
of RowDecodes and of the third clause of DecodeFollowsOpcodeMap. -/
theorem witness_RowDecodes :
    opcodeRows.all (fun r => r.selects r.pattern && r.selects (r.pattern ||| ~~~ r.mask)) = true := by decide

theorem witness_EncodeOfDecodeIsTheWord : decode 0x8125 = some (.subReg 1 2) ∧ decode 0xFF65 = some (.ldVxMem 0xF) := by
  decide

/-- Listings P1, P2, P3: the text of six instructions. -/
theorem test_assembly :
    [.addImm 0 0xFF, .jp 0x204, .call 0x210, .ldB 0, .ldVxMem 2, .ldI 0x218].map assembly =
    ["ADD V0, 0xFF", "JP 0x204", "CALL 0x210", "LD B, V0", "LD V2, [I]", "LD I, 0x218"] := by decide

/-! ### Control flow -/

/-- V-C2, V-C3. -/
theorem test_ret :
    seen (run1 0x00EE fun s => { s with stack := [0x206, 0x300] }) (fun t => (t.pc, t.stack)) =
      some (0x300, [0x206]) ∧
    seen (run1 0x00EE id) (fun t => (t.run, t.pc, causeOf t)) =
      some (.faulted, 0x200, some (.stackUnderflow (withFields 0x00EE))) := by decide

/-- V-C8. -/
theorem test_jp : seen (run1 0x1001 id) (·.pc) = some 1 := by decide

/-- V-C11. -/
theorem test_call :
    seen (run1 0x2200 fun s => { s with stack := [0x111] }) (fun t => (t.pc, t.stack)) =
      some (0x200, [0x111, 0x202]) := by decide

/-- V-C12: at the last address an instruction can be fetched from. -/
theorem test_call_at_the_end :
    seen (run1 0x2F00 fun s => { s with pc := 0xFFE }) (fun t => (t.pc, t.stack)) = some (0xF00, [0x1000]) := by decide

/-- V-C13, V-C14. -/
theorem test_seImm :
    seen (run1 0x3A42 (regs [(0xA, 0x42)])) (·.pc) = some 0x204 ∧
    seen (run1 0x3A42 (regs [(0xA, 0x43)])) (·.pc) = some 0x202 := by decide

/-- V-C15: the largest PC. -/
theorem test_seImm_at_the_end : seen (run1 0x3000 fun s => { s with pc := 0xFFE }) (·.pc) = some 0x1002 := by decide

/-- V-C16, V-C17. -/
theorem test_sneImm :
    seen (run1 0x4A42 (regs [(0xA, 0x42)])) (·.pc) = some 0x202 ∧
    seen (run1 0x4A42 (regs [(0xA, 0x43)])) (·.pc) = some 0x204 := by decide

/-- V-C18, V-C19. -/
theorem test_seReg :
    seen (run1 0x5120 (regs [(1, 7), (2, 7)])) (·.pc) = some 0x204 ∧
    seen (run1 0x5120 (regs [(1, 7), (2, 8)])) (·.pc) = some 0x202 := by decide

/-- V-C22, V-C23. -/
theorem test_sneReg :
    seen (run1 0x9120 (regs [(1, 7), (2, 7)])) (·.pc) = some 0x202 ∧
    seen (run1 0x9120 (regs [(1, 7), (2, 8)])) (·.pc) = some 0x204 := by decide

/-! ### Load, arithmetic, logic -/

/-- V-A1, V-A2. -/
theorem test_ldImm :
    seen (run1 0x6A42 id) (fun t => (t.getV 0xA, t.pc)) = some (0x42, 0x202) ∧
    seen (run1 0x6F00 (regs [(0xF, 9)])) (·.getV 0xF) = some 0 := by decide

/-- V-A3. -/
theorem test_addImm : seen (run1 0x7102 (regs [(1, 0xFF), (0xF, 7)])) (fun t => (t.getV 1, t.getV 0xF)) = some (1, 7) := by
  decide

/-- V-A7. -/
theorem test_ldReg :
    seen (run1 0x8120 (regs [(1, 1), (2, 0xAB)])) (fun t => (t.getV 1, t.getV 2)) = some (0xAB, 0xAB) := by decide

/-- V-A9. -/
theorem test_orReg :
    seen (run1 0x8121 (regs [(1, 0xF0), (2, 0x0F), (0xF, 7)])) (fun t => (t.getV 1, t.getV 0xF)) = some (0xFF, 7) := by
  decide

/-- V-A10. -/
theorem test_andReg :
    seen (run1 0x8122 (regs [(1, 0xF0), (2, 0x3C), (0xF, 7)])) (fun t => (t.getV 1, t.getV 0xF)) = some (0x30, 7) := by
  decide

/-- V-A11, V-A12. -/
theorem test_xorReg :
    seen (run1 0x8123 (regs [(1, 0xF0), (2, 0x3C), (0xF, 7)])) (fun t => (t.getV 1, t.getV 0xF)) = some (0xCC, 7) ∧
    seen (run1 0x8113 (regs [(1, 0xF0)])) (·.getV 1) = some 0 := by decide

/-- V-A13, V-A16. -/
theorem test_addReg :
    seen (run1 0x8124 (regs [(1, 200), (2, 100), (0xF, 7)])) (fun t => (t.getV 1, t.getV 0xF)) = some (0x2C, 7) ∧
    seen (run1 0x8F14 (regs [(1, 2), (0xF, 0xFF)])) (·.getV 0xF) = some 1 := by decide

/-- V-A18, V-A21. -/
theorem test_subReg :
    seen (run1 0x8125 (regs [(1, 5), (2, 10), (0xF, 7)])) (fun t => (t.getV 1, t.getV 0xF)) = some (0xFB, 7) ∧
    seen (run1 0x8F15 (regs [(1, 1)])) (·.getV 0xF) = some 0xFF := by decide

/-- V-A22. -/
theorem test_shr :
    seen (run1 0x8126 (regs [(1, 0x85), (2, 0xFF), (0xF, 7)])) (fun t => (t.getV 1, t.getV 2, t.getV 0xF)) =
      some (0x42, 0xFF, 7) := by decide

/-- V-A25, V-A26. -/
theorem test_shl :
    seen (run1 0x812E (regs [(1, 0x85), (2, 0xFF), (0xF, 7)])) (fun t => (t.getV 1, t.getV 2, t.getV 0xF)) =
      some (0x0A, 0xFF, 1) ∧
    seen (run1 0x812E (regs [(1, 0x80), (0xF, 7)])) (fun t => (t.getV 1, t.getV 0xF)) = some (0, 0) := by decide

/-- V-A28, V-A29: X = F. -/
theorem test_shl_vf :
    seen (run1 0x8F2E (regs [(0xF, 0x03)])) (·.getV 0xF) = some 2 ∧
    seen (run1 0x8F2E (regs [(0xF, 0x82)])) (·.getV 0xF) = some 0 := by decide

/-- V-A33, V-A35. -/
theorem test_rnd :
    seen (run1 0xC10F fun s => { s with inputs := [⟨0, 0xA7⟩] }) (fun t => (t.getV 1, t.inputs, t.drawn)) =
      some (7, [], 1) ∧
    seen (run1 0xCF3C fun s => { s with inputs := [⟨0, 0xFF⟩] }) (·.getV 0xF) = some 0x3C := by decide

/-! ### Index and memory -/

/-- V-I1. -/
theorem test_ldI : seen (run1 0xA123 fun s => { s with i := 5 }) (fun t => (t.i, t.pc)) = some (0x123, 0x202) := by decide

/-- V-I4, V-I5. -/
theorem test_addI :
    seen (run1 0xF11E fun s => regs [(1, 1), (0xF, 7)] { s with i := 0xFFF }) (fun t => (t.i, t.getV 0xF)) =
      some (0x1000, 7) ∧
    seen (run1 0xF11E fun s => regs [(1, 2)] { s with i := 0xFFFF }) (·.i) = some 1 := by decide

/-- V-I8, V-I10. -/
theorem test_ldF :
    seen (run1 0xF129 (regs [(1, 0xF)])) (·.i) = some 0x9B ∧
    seen (run1 0xF129 (regs [(1, 0xFF)])) (·.i) = some 0x54B := by decide

/-- V-I11: the three cells are listed, after the instruction's own. V-I18: the instruction overwrites itself, and the next
fetch reads 0x09 and Mem[0x203]. -/
theorem test_ldB :
    seen (run1 0xF133 fun s => regs [(1, 234)] { s with i := 0x300 }) (fun t => (t.mem, t.i)) =
      some ([(0x200, 0xF1), (0x201, 0x33), (0x300, 2), (0x301, 3), (0x302, 4)], 0x300) ∧
    (seen (run1 0xF133 fun s => regs [(1, 0x81)] { s with i := 0x200, mem := [(0x203, 0x55)] }) fun t =>
      decide (t.fetch = .ok 0x0955#16)) = some true := by decide

/-- V-I16: a fault, and nothing is stored. -/
theorem test_ldB_fault :
    seen (run1 0xF133 fun s => regs [(1, 100)] { s with i := 0xFFE }) (fun t => (t.mem, t.pc, causeOf t)) =
      some ([(0x200, 0xF1), (0x201, 0x33)], 0x200,
        some (.memoryOutOfBounds 0x1000 .write (some (withFields 0xF133)))) := by decide

/-- V-I19. -/
theorem test_ldMemVx :
    seen (run1 0xF255 fun s => regs [(0, 0x11), (1, 0x22), (2, 0x33), (3, 0x44)] { s with i := 0x400 })
      (fun t => (t.mem, t.i)) =
      some ([(0x200, 0xF2), (0x201, 0x55), (0x400, 0x11), (0x401, 0x22), (0x402, 0x33)], 0x400) := by decide

/-- V-I21. -/
theorem test_ldMemVx_fault :
    seen (run1 0xF155 fun s => regs [(0, 0x11), (1, 0x22)] { s with i := 0xFFF }) (fun t => (t.mem, t.run)) =
      some ([(0x200, 0xF1), (0x201, 0x55)], .faulted) := by decide

/-- V-I26: the bytes read include the instruction's own first byte. -/
theorem test_ldVxMem :
    seen (run1 0xF165 fun s => regs [(2, 9)] { s with i := 0x1FF, mem := [(0x1FF, 0x77)] })
      (fun t => (t.getV 0, t.getV 1, t.getV 2, t.i)) = some (0x77, 0xF1, 9, 0x1FF) := by decide

/-- V-I25. -/
theorem test_ldVxMem_fault :
    seen (run1 0xF065 fun s => { s with i := 0x1000 }) causeOf =
      some (some (.memoryOutOfBounds 0x1000 .read (some (withFields 0xF065)))) := by decide

/-! ### Display -/

/-- V-D20. -/
theorem test_cls :
    seen (run1 0x00E0 fun s => regs [(0xF, 7)] { s with fb := Vector.replicate 32 (~~~ 0#64) })
      (fun t => (t.fb, t.getV 0xF, t.pc)) = some (State.reset.fb, 7, 0x202) := by decide

/-- V-D3: pixels 0 to 3 of row 0 on, and VF = 1 for the columns that are 0 after the draw. -/
theorem test_drw :
    seen (run1 0xD011 fun s => { s with i := 0x300, mem := [(0x300, 0xF0)] })
      (fun t => (t.fb, t.getV 0xF, t.pc)) = some (State.reset.fb.set 0 0xF, 1, 0x202) := by decide

/-- V-D11: clipped at the corner. V-D10: the coordinates wrap by mask, bit 7 is the leftmost column. -/
theorem test_drw_place :
    seen (run1 0xD012 fun s => regs [(0, 0xFF), (1, 0xFF)] { s with i := 0x300, mem := [(0x300, 0x80), (0x301, 0x80)] })
      (fun t => (t.fb, t.getV 0xF)) = some (State.reset.fb.set 31 (1 <<< 63), 0) ∧
    seen (run1 0xD011 fun s => regs [(0, 0x47), (1, 0x25)] { s with i := 0x300, mem := [(0x300, 0x80)] })
      (fun t => (t.fb, t.getV 0xF)) = some (State.reset.fb.set 5 0x80, 1) := by decide

/-! ### Keypad and timers -/

/-- V-K3, V-K4, V-K6. -/
theorem test_skp :
    seen (run1 0xE29E fun s => regs [(2, 5)] { s with inputs := [⟨0xFFDF, 0⟩] }) (·.pc) = some 0x202 ∧
    seen (run1 0xE29E fun s => regs [(2, 0xF)] { s with inputs := [⟨0x8000, 0⟩] }) (·.pc) = some 0x204 ∧
    seen (run1 0xE29E fun s => regs [(2, 0x15)] { s with inputs := [⟨0xFFFF, 0⟩] }) causeOf =
      some (some (.invalidKey 0x15 (withFields 0xE29E))) := by decide

/-- V-K7, V-K8. -/
theorem test_sknp :
    seen (run1 0xE2A1 fun s => regs [(2, 5)] { s with inputs := [⟨0, 0⟩] }) (·.pc) = some 0x204 ∧
    seen (run1 0xE2A1 fun s => regs [(2, 5)] { s with inputs := [⟨0x0020, 0⟩] }) (·.pc) = some 0x202 := by decide

/-- V-K28. -/
theorem test_ldVxK :
    seen (run1 0xF30A fun s => { s with st := 1, inputs := [⟨0xFFFF, 0⟩] })
      (fun t => (t.run, t.pc, t.getV 3, t.st, t.beeps)) = some (.blocked 3, 0x202, 0, 0, 1) := by decide

/-- V-K29, V-K30: the poll. -/
theorem test_poll :
    seen (step { State.reset with run := .blocked 3, inputs := [⟨0, 0⟩] }) (fun t => (t.run, t.getV 3)) =
      some (.blocked 3, 0) ∧
    seen (step { State.reset with run := .blocked 3, pc := 0x202, inputs := [⟨0x0800, 0⟩] })
      (fun t => (t.run, t.getV 3, t.pc)) = some (.running, 0x0B, 0x202) := by decide

/-- V-K12. -/
theorem test_ldVxDt : seen (run1 0xF107 fun s => { s with dt := 9 }) (fun t => (t.getV 1, t.dt)) = some (9, 8) := by decide

/-- V-K15, V-K16. -/
theorem test_ldDtVx :
    seen (run1 0xF115 (regs [(1, 5)])) (·.dt) = some 4 ∧
    seen (run1 0xF115 fun s => { s with dt := 9 }) (·.dt) = some 0 := by decide

/-- V-K20, V-K21, V-K23. -/
theorem test_ldStVx :
    seen (run1 0xF118 (regs [(1, 1)])) (fun t => (t.st, t.beeps)) = some (0, 1) ∧
    seen (run1 0xF118 fun s => { s with st := 1 }) (fun t => (t.st, t.beeps)) = some (0, 0) ∧
    seen (run1 0xF118 fun s => regs [(1, 5)] { s with st := 1 }) (fun t => (t.st, t.beeps)) = some (4, 0) := by decide

/-! ### The step, load, reset -/

/-- V-C9's second step: a fetch that runs over the end. -/
theorem test_fetch_fault :
    seen (step { State.reset with pc := 0xFFF }) (fun t => (t.run, t.pc, causeOf t)) =
      some (.faulted, 0xFFF, some (.memoryOutOfBounds 0x1000 .fetch none)) := by decide

/-- V-K27: both timers in one step, and one beep. -/
theorem test_tick :
    seen (run1 0x6000 fun s => { s with dt := 1, st := 1 }) (fun t => (t.dt, t.st, t.beeps)) = some (0, 0, 1) := by decide

/-- V-S7: the ROM 12 00 and the first and last glyph. -/
theorem test_load :
    let t := State.reset.load [0x12, 0x00]
    [0x50, 0x51, 0x52, 0x53, 0x54].map (Memory.read t.mem) = [0xF0, 0x90, 0x90, 0x90, 0xF0] ∧
    [0x9B, 0x9C, 0x9D, 0x9E, 0x9F].map (Memory.read t.mem) = [0xF0, 0x80, 0xF0, 0x80, 0x80] ∧
    [0x4F, 0xA0, 0x200, 0x201].map (Memory.read t.mem) = [0, 0, 0x12, 0] ∧ t.pc = 0x200 := by decide

/-- P3: the glyph of 7. -/
theorem test_font_seven :
    (List.range 5).map (fun k => Config.fontTable.toList.getD (35 + k) 0) = [0xF0, 0x10, 0x20, 0x40, 0x40] := by decide

/-- V-S8. -/
theorem test_reset :
    let s := regs [(3, 9)] { State.reset with run := .blocked 2, pc := 0x400, dt := 4, stack := [0x300] }
    let t := State.hostReset { s with fb := s.fb.set 7 1 }
    t = { s with pc := 0x200 } := by decide

/-- The instruction that withFetchWord places is the one the next step runs. -/
theorem test_withFetchWord :
    State.fetch (State.reset.withFetchWord 16 0xD5A3) = .ok 0xD5A3#16 ∧
    State.fetch ({ State.reset with pc := 0xFFF }.withFetchWord 16 0x00EE) = .ok 0x00EE#16 := by decide

/-! ### Witnesses: for each statement with hypotheses, a state and operands that meet them, clause by clause -/

/-- A Running state with a word at PC, which is `p`. -/
def atPc (p : Word) (w : Nat) : State := State.withFetchWord { State.reset with pc := p } 16 w

theorem witness_DecodeFollowsOpcodeMap :
    decode 0x8125 = some (.subReg 1 2) ∧
    ∃ r ∈ opcodeRows, ∃ r' ∈ opcodeRows, r.selects 0x8125 = true ∧ r'.selects 0x8125 = true :=
  ⟨by decide, rowOf (.subReg 0 0), by decide, rowOf (.subReg 0 0), by decide, by decide, by decide⟩

theorem witness_ByteAccessIsChecked :
    Memory.wf State.reset.mem = true ∧ 0xFFF ≤ 0xFFF ∧ 0xFFF < 0x1000 := by decide

/-- The ranges of Lowest...: the last that fits, and the two kinds that do not. -/
theorem witness_LowestOutsideAddressIsReported :
    firstOutside 0xFFE 2 = none ∧ firstOutside 0xFFE 3 = some 0x1000 ∧ firstOutside 0x1234 3 = some 0x1234 ∧
    firstOutside 0xFFFF 0 = none := by decide

/-- The same cells written in two orders. -/
theorem witness_CanonicalMemoryIsUnique :
    let m := Memory.writeAll [] 0x300 [1, 2]
    let m' := Memory.write (Memory.write [] 0x301 2) 0x300 1
    Memory.wf m = true ∧ Memory.wf m' = true ∧ ∀ a, Memory.read m a = Memory.read m' a :=
  ⟨by decide, by decide, fun _ => rfl⟩

theorem witness_StoresKeepMemoryProper :
    Memory.Proper State.reset.mem ∧ (∃ t, State.reset.memWrite 0xFFF 7 = .ok t) ∧
    ∃ t, State.reset.writeBytes 0xFFE [7, 8] = .ok t :=
  ⟨⟨by decide, by decide⟩, ⟨_, rfl⟩, _, rfl⟩

theorem witness_FetchIsBigEndianAndChecked :
    ({ State.reset with pc := 0xFFE } : State).pc.toNat ≤ 0xFFE ∧
    0xFFE < ({ State.reset with pc := 0xFFF } : State).pc.toNat ∧
    0xFFE < ({ State.reset with pc := 0x1000 } : State).pc.toNat ∧
    ({ State.reset with pc := 0xFFF } : State).run = .running := by decide

theorem witness_RetPopsTheReturnAddress :
    ({ State.reset with stack := [0x206, 0x300] } : State).stack = [0x206] ++ [0x300] ∧ State.reset.stack = [] := by decide

theorem witness_FiniteStackLimitOverflows :
    State.reset.sp = 0 ∧ ({ State.reset with stack := [0x206] } : State).sp = 1 ∧ State.reset.sp ≠ 12 := by decide

/-- The illegal forms, in both classes. -/
theorem witness_RegisterSkips :
    (0x5121#16 &&& 0xF000 = 0x5000 ∧ (fieldsOf 0x5121).n ≠ 0) ∧
    (0x912F#16 &&& 0xF000 = 0x9000 ∧ (fieldsOf 0x912F).n ≠ 0) := by decide

theorem witness_CallThenRetComesBack :
    let s := { atPc 0x200 0x2300 with mem := Memory.writeAll (atPc 0x200 0x2300).mem 0x300 [0x00, 0xEE] }
    s.run = .running ∧ s.fetch = .ok 0x2300#16 ∧ decode 0x2300 = some (.call 0x300) ∧
    State.fetch { s with pc := zextAddr 0x300 } = .ok 0x00EE#16 := by decide

theorem witness_ShiftLeftFlagsTheLowBit : (1#4 : Nibble) ≠ 0xF := by decide

theorem witness_RandomByteIsMasked :
    ({ State.reset with inputs := [⟨0, 0xA7⟩] } : State).inputs = ⟨0, 0xA7⟩ :: [] ∧ State.reset.inputs = [] := by decide

/-- In range up to I = 0xFFD, outside from 0xFFE and from 0x1000. -/
theorem witness_DecimalDigitsAreStored :
    Memory.wf State.reset.mem = true ∧ ({ State.reset with i := 0xFFD } : State).i.toNat + 2 ≤ 0xFFF ∧
    0xFFF < ({ State.reset with i := 0xFFE } : State).i.toNat + 2 ∧
    0xFFF < ({ State.reset with i := 0x1000 } : State).i.toNat + 2 := by decide

/-- In range up to I = 0xFF0 with X = F, outside from 0xFF1; the same for RegistersAreLoaded. -/
theorem witness_RegistersAreStored :
    Memory.wf State.reset.mem = true ∧ ({ State.reset with i := 0xFF0 } : State).i.toNat + (0xF#4).toNat ≤ 0xFFF ∧
    0xFFF < ({ State.reset with i := 0xFF1 } : State).i.toNat + (0xF#4).toNat := by decide

theorem witness_RegistersAreLoaded :
    ({ State.reset with i := 0xFFF } : State).i.toNat + (0#4).toNat ≤ 0xFFF ∧
    0xFFF < ({ State.reset with i := 0x1000 } : State).i.toNat + (0#4).toNat := by decide

/-- The hypotheses on the state after the store are met by that state itself. -/
theorem witness_StoredRegistersLoadBack :
    let s := regs [(0, 0x11), (1, 0x22)] { State.reset with i := 0xFFE }
    Memory.wf s.mem = true ∧ s.i.toNat + (1#4).toNat ≤ 0xFFF ∧
    ∃ t, exec (.ldMemVx 1) s = .next t ∧ ∃ u : State, u.i = t.i ∧
      ∀ a, t.i.toNat ≤ a → a ≤ t.i.toNat + (1#4).toNat → Memory.read u.mem a = Memory.read t.mem a :=
  ⟨by decide, by decide, _, rfl, _, rfl, fun _ _ _ => rfl⟩

/-- FX55 with X = 0 that reaches only the first byte of the next word, and FX33 on itself (V-I18), each at the last
address whose next word can be fetched. -/
theorem witness_FetchSeesThePreviousStore :
    let s := { atPc 0xFFC 0xF055 with i := 0xFFE }
    let s' := { atPc 0xFFC 0xF133 with i := 0xFFC }
    (Memory.wf s.mem = true ∧ s.run = .running ∧ s.fetch = .ok 0xF055#16 ∧ decode 0xF055 = some (.ldMemVx 0) ∧
      s.i.toNat + (0#4).toNat ≤ 0xFFF ∧ s.pc.toNat + 3 ≤ 0xFFF) ∧
    (Memory.wf s'.mem = true ∧ s'.run = .running ∧ s'.fetch = .ok 0xF133#16 ∧ decode 0xF133 = some (.ldB 1) ∧
      s'.i.toNat + 2 ≤ 0xFFF ∧ s'.pc.toNat + 3 ≤ 0xFFF) := by decide

theorem witness_FlipTable : 63 < 64 ∧ 31 < 32 := by decide

/-- N = 0 at an address outside, the last address inside, the first outside; and a covered pixel at the corner. -/
theorem witness_SpriteIsDrawn :
    (0#4 = 0#4 ∨ 0xFFFF + (0#4).toNat - 1 ≤ 0xFFF) ∧
    ({ State.reset with i := 0xFF1 } : State).i.toNat + (0xF#4).toNat - 1 ≤ 0xFFF ∧
    (0xF#4 ≠ 0#4 ∧ 0xFFF < ({ State.reset with i := 0xFF2 } : State).i.toNat + (0xF#4).toNat - 1) ∧
    State.spriteCovers (regs [(0, 0xFF), (1, 0xFF)] State.reset) 0 1 1 63 31 ∧
    ¬ State.spriteCovers (regs [(0, 0xFF), (1, 0xFF)] State.reset) 0 1 1 62 31 := by
  unfold State.spriteCovers
  decide

theorem witness_DrawingTwiceRestoresTheScreen :
    (0#4 : Nibble) ≠ 0xF ∧ (1#4 : Nibble) ≠ 0xF ∧
    (1#4 = 0#4 ∨ ({ State.reset with i := 0x300 } : State).i.toNat + (1#4).toNat - 1 ≤ 0xFFF) := by decide

/-- The largest key number and the first that is none; a listed input and none. -/
theorem witness_KeySkips :
    ((regs [(2, 15)] State.reset).getV 2).toNat ≤ 15 ∧ 15 < ((regs [(2, 16)] State.reset).getV 2).toNat ∧
    ({ State.reset with inputs := [⟨0x8001, 0⟩] } : State).inputs = ⟨0x8001, 0⟩ :: [] ∧ State.reset.inputs = [] := by
  decide

theorem witness_BlockedStepPolls :
    let s : StepInput → State := fun u => { State.reset with run := .blocked 3, inputs := [u] }
    (s ⟨0, 0⟩).run = .blocked 3 ∧ anyKey (s ⟨0, 0⟩).keys = none ∧
    (s ⟨0x8000, 0⟩).run = .blocked 3 ∧ anyKey (s ⟨0x8000, 0⟩).keys = some 0xF := by decide

/-- One key alone is held: the first and the last. -/
theorem witness_AnyKeyFollowsKeyOrder :
    (∀ j : Nibble, (0x0001#16).getLsbD j.toNat = true ↔ j = 0) ∧
    (∀ j : Nibble, (0x8000#16).getLsbD j.toNat = true ↔ j = 0xF) := by decide

/-- An instruction that completes and one that faults, at the last address that can be fetched from. -/
theorem witness_StepRunsTheDecodedInstruction :
    let s := atPc 0xFFE 0x00E0
    let s' := atPc 0xFFE 0x00EE
    s.run = .running ∧ s.pc.toNat ≤ 0xFFE ∧
    decode (wordOfBytes (Memory.read s.mem s.pc.toNat) (Memory.read s.mem (s.pc.toNat + 1))) = some .cls ∧
    seen (exec .cls s) (fun t => decide (t.run ≠ .faulted)) = some true ∧
    s'.run = .running ∧ s'.pc.toNat ≤ 0xFFE ∧
    decode (wordOfBytes (Memory.read s'.mem s'.pc.toNat) (Memory.read s'.mem (s'.pc.toNat + 1))) = some .ret ∧
    seen (exec .ret s') (fun t => decide (t.run = .faulted)) = some true := by decide

theorem witness_IllegalWordFaults :
    (atPc 0xFFE 0xB200).run = .running ∧ (atPc 0xFFE 0xB200).fetch = .ok 0xB200#16 ∧ legalWord 0xB200 = false := by
  decide

theorem witness_FaultedIsTerminal : (State.reset.afterFault (.stackUnderflow (withFields 0x00EE))).run = .faulted := by
  decide

theorem witness_FaultsArePrecise :
    (atPc 0x200 0x00EE).run ≠ .faulted ∧ ∃ t, step (atPc 0x200 0x00EE) = .next t ∧ t.run = .faulted :=
  ⟨by decide, _, rfl, by decide⟩

/-- A step that stays healthy and one that does not. -/
theorem witness_StepIsHealthyExactlyWhenChecksPass :
    (atPc 0xFFE 0x00E0).run = .running ∧ (∃ t, step (atPc 0xFFE 0x00E0) = .next t ∧ t.run ≠ .faulted) ∧
    (atPc 0xFFF 0x00E0).run = .running ∧ ∃ t, step { State.reset with pc := 0xFFF } = .next t ∧ t.run = .faulted :=
  ⟨by decide, ⟨_, rfl, by decide⟩, by decide, _, rfl, by decide⟩

/-- A state that meets the invariant and whose step answers: a call with a return address on the stack. -/
theorem witness_StepKeepsInvariant :
    State.Inv { atPc 0xFFE 0x2F00 with stack := [0x1000] } ∧
    ∃ t, step { atPc 0xFFE 0x2F00 with stack := [0x1000] } = .next t :=
  ⟨⟨⟨by decide, by decide⟩,
    ⟨by decide, fun t h => by obtain rfl : t = 0x1000 := List.mem_singleton.mp h; decide⟩,
    fun _ h => RunState.noConfusion h, fun _ => rfl⟩, _, rfl⟩

theorem witness_HostOperationsKeepInvariant : State.reset.Inv ∧ ∃ t, cycle 1 State.reset = .next t :=
  ⟨⟨⟨by decide, by decide⟩, ⟨by decide, fun _ h => nomatch h⟩, fun _ h => RunState.noConfusion h, fun _ => rfl⟩,
    _, rfl⟩

theorem witness_OnlyListedRegistersAreWritten :
    (∃ t, exec (.shl 1 2) State.reset = .next t) ∧ 3#4 ∉ writtenRegs (.shl 1 2) := ⟨⟨_, rfl⟩, by decide⟩

/-- For each place, an instruction that changes it. -/
theorem witness_OnlyNamedInstructionsWriteEachPlace :
    seen (exec (.ldI 1) State.reset) (fun t => decide (t.i ≠ State.reset.i)) = some true ∧
    seen (exec (.call 1) State.reset) (fun t => decide (t.stack ≠ State.reset.stack)) = some true ∧
    seen (exec (.ldDtVx 1) (regs [(1, 5)] State.reset)) (fun t => decide (t.dt ≠ State.reset.dt)) = some true ∧
    seen (exec (.ldStVx 1) (regs [(1, 5)] State.reset)) (fun t => decide (t.st ≠ State.reset.st)) = some true ∧
    seen (exec .cls { State.reset with fb := State.reset.fb.set 0 1 })
      (fun t => decide (t.fb ≠ State.reset.fb.set 0 1)) = some true ∧
    seen (exec (.ldB 1) (regs [(1, 5)] State.reset)) (fun t => decide (t.mem ≠ State.reset.mem)) = some true ∧
    seen (exec (.ldVxK 1) State.reset) (fun t => decide (t.run ≠ State.reset.run)) = some true ∧
    seen (exec .ret State.reset) (fun t => decide (t.run ≠ State.reset.run ∧ t.fault ≠ State.reset.fault)) = some true := by
  decide

/-- A step of a Running core that is neither FX15 nor FX18. -/
theorem witness_TimersRunInEveryStep :
    let s := { atPc 0x200 0x00E0 with dt := 1, st := 1 }
    (∃ t, step s = .next t ∧ t.Healthy) ∧ s.run = .running ∧ s.fetch = .ok 0x00E0#16 ∧
    (∀ w x, s.run = .running → s.fetch = .ok w → decode w ≠ some (.ldDtVx x)) ∧
    (∀ w x, s.run = .running → s.fetch = .ok w → decode w ≠ some (.ldStVx x)) := by
  have e : ({ atPc 0x200 0x00E0 with dt := 1, st := 1 } : State).fetch = .ok 0x00E0#16 := by decide
  have d : decode 0x00E0#16 = some .cls := by decide
  refine ⟨⟨_, rfl, by unfold State.Healthy; decide⟩, by decide, e, fun w x _ h => ?_, fun w x _ h => ?_⟩ <;>
  · rw [e] at h
    obtain rfl := Except.ok.inj h
    rw [d]
    exact fun h => Instr.noConfusion (Option.some.inj h)

theorem witness_BlockedCoreWaitsWhileTimersRun :
    let s := { State.reset with run := .blocked 3, st := 2, inputs := [⟨0, 7⟩, ⟨0, 8⟩] }
    s.run = .blocked 3 ∧ 2 ≤ s.inputs.length ∧ ∀ u ∈ s.inputs.take 2, u.keys = 0#16 := by decide

/-- The longest ROM that fits (V-S9), and an index of it. -/
theorem witness_LoadPlacesFontAndRom :
    Memory.wf State.reset.mem = true ∧ (List.replicate 3584 (0xFF : Byte)).length ≤ 3584 ∧
    3583 < (List.replicate 3584 (0xFF : Byte)).length :=
  ⟨by decide, by rw [List.length_replicate], by rw [List.length_replicate]; omega⟩

/-- The shortest ROM that does not fit (V-S10). -/
theorem witness_OverlongLoadFaults :
    Memory.wf State.reset.mem = true ∧ 3584 < (List.replicate 3585 (0xFF : Byte)).length ∧ State.reset.Healthy :=
  ⟨by decide, by rw [List.length_replicate]; omega, by unfold State.Healthy; decide⟩

/-- A step that does not fault, one that does, and two runs of steps. -/
theorem witness_CycleIsUpToNSteps :
    ((atPc 0x200 0x1200).run ≠ .faulted ∧ ∃ t, step (atPc 0x200 0x1200) = .next t) ∧
    (∃ t, cycle 2 (atPc 0x200 0x1200) = .next t) ∧
    State.reset.run ≠ .faulted ∧ ∃ t, step State.reset = .next t ∧ t.run = .faulted :=
  ⟨⟨by decide, _, rfl⟩, ⟨_, rfl⟩, by decide, _, rfl, by decide⟩

end Sys2Proof.Tests
end

section
/-! PROOFS. 10_state.md: which instruction writes which piece of state, and the timers in a step. -/

namespace Sys2Proof.Machine

/-! ### What an instruction may write (10_state.md R23, R26 to R30, 20_memory.md R51) -/

/-- `s` with PC, the V registers and the one other place that `i` may write taken from `t`. FX0A alone writes RUN, and
only to Blocked on its own register. -/
def State.withWritesOf (s : State) (i : Instr) (t : State) : State :=
  let u := { s with v := t.v, pc := t.pc }
  match i with
  | .ldI _ | .addI _ | .ldF _ => { u with i := t.i }
  | .ret | .call _ => { u with stack := t.stack }
  | .ldDtVx _ => { u with dt := t.dt }
  | .ldStVx _ => { u with st := t.st }
  | .cls | .drw _ _ _ => { u with fb := t.fb }
  | .ldB _ | .ldMemVx _ => { u with mem := t.mem }
  | .ldVxK x => { u with run := .blocked x }
  | _ => u

/-- An instruction whose two outcomes are to complete in `t`, with its own places written, or to fault. -/
theorem writes_of_cases {i : Instr} {s t : State} {c : FaultCause} {p q : Prop}
    (h : (p ∧ exec i s = .next t) ∨ (q ∧ exec i s = faultWith s c)) (ht : t = s.withWritesOf i t) :
    (∃ c, exec i s = .next (s.afterFault c)) ∨ ∃ t, exec i s = .next t ∧ t = s.withWritesOf i t :=
  h.elim (fun ⟨_, e⟩ => .inr ⟨t, e, ht⟩) (fun ⟨_, e⟩ => .inl ⟨c, e⟩)

/-- An instruction enters a fault, or writes nothing but its own places. -/
theorem exec_writes (i : Instr) (s : State) :
    (∃ c, exec i s = .next (s.afterFault c)) ∨ ∃ t, exec i s = .next t ∧ t = s.withWritesOf i t := by
  cases i
  case ret =>
    rcases execRet_cases s with ⟨-, e⟩ | ⟨_, _, -, e⟩
    · exact .inl ⟨_, e⟩
    · exact .inr ⟨_, e, rfl⟩
  case drw x y n =>
    rcases execDrw_cases x y n s with ⟨-, _, -, e⟩ | ⟨-, e⟩
    · exact .inr ⟨_, e, rfl⟩
    · exact .inl ⟨_, e⟩
  case ldB x => exact writes_of_cases (s.storeAtI_cases (.ldB x) (decimalDigits (s.getV x))) rfl
  case ldMemVx x => exact writes_of_cases (s.storeAtI_cases (.ldMemVx x) (s.regsTo x)) rfl
  case ldVxMem x => exact writes_of_cases (execLdVxMem_cases x s) rfl
  case skp x => exact writes_of_cases (s.skipOnKey_cases (.skp x) x true) rfl
  case sknp x => exact writes_of_cases (s.skipOnKey_cases (.sknp x) x false) rfl
  all_goals exact .inr ⟨_, rfl, rfl⟩

/-- Settles O52: a fault keeps every place but RUN and FAULT, and an instruction that completes writes its own places
alone (`exec_writes`). -/
theorem onlyNamedInstructionsWriteEachPlace : Obligations.OnlyNamedInstructionsWriteEachPlace := by
  unfold Obligations.OnlyNamedInstructionsWriteEachPlace
  intro i s t h
  rcases exec_writes i s with ⟨c, e⟩ | ⟨t', e, hw⟩ <;> obtain rfl := Host.Outcome.next.inj (h.symm.trans e)
  · have entry : ∃ c', s.afterFault c = s.afterFault c' := ⟨c, rfl⟩
    exact ⟨absurd rfl, absurd rfl, absurd rfl, absurd rfl, absurd rfl, absurd rfl, fun _ => .inr entry, fun _ => entry,
      rfl, rfl, rfl⟩
  · obtain ⟨u, rfl⟩ : ∃ u, t = s.withWritesOf i u := ⟨t, hw⟩
    cases i <;> simp [State.withWritesOf]

/-! ### The end of a step (40_step_cycle.md R98, R99) -/

theorem State.endStep_dt_toNat (s : State) : s.endStep.dt.toNat = s.dt.toNat - 1 := timer_down s.dt

theorem State.endStep_st_toNat (s : State) : s.endStep.st.toNat = s.st.toNat - 1 := timer_down s.st

theorem State.endStep_beeps_of_st_toNat (s : State) :
    s.endStep.beeps = if s.st.toNat = 1 then s.beeps + 1 else s.beeps := by
  simp [← BitVec.toNat_inj]

/-- The poll writes only V and RUN. -/
theorem State.poll_writes (s : State) (x : Nibble) :
    s.poll x = { s with v := (s.poll x).v, run := (s.poll x).run } := by
  unfold State.poll
  split <;> rfl

/-- A step that does not fault is the end of a poll or of an instruction that the fetched word selects. -/
theorem step_healthy {s t : State} (h : step s = .next t) (ht : t.Healthy) :
    (∃ x, s.run = .blocked x ∧ t = (s.poll x).endStep) ∨
    ∃ w i u, s.run = .running ∧ s.fetch = .ok w ∧ decode w = some i ∧ exec i s = .next u ∧ t = u.endStep := by
  have eq {t'} (e : step s = .next t') : t = t' := Host.Outcome.next.inj (h.symm.trans e)
  rcases step_cases s with ⟨hr, e⟩ | ⟨x, hr, e⟩ | ⟨-, -, e⟩ | ⟨w, -, -, -, -, e⟩ | ⟨w, i, c, -, -, -, -, -, -, e⟩ |
    ⟨w, i, u, hr, -, hf, hd, -, hx, -, -, -, -, -, e⟩ <;> obtain rfl := eq e
  · exact absurd hr ht
  · exact .inl ⟨x, hr, rfl⟩
  · exact absurd rfl ht
  · exact absurd rfl ht
  · exact absurd rfl ht
  · exact .inr ⟨w, i, u, hr, hf, hd, hx, rfl⟩

/-- Settles O53: a step that does not fault ends with the tick, and before it the poll writes no timer and an
instruction only as O52 allows. -/
theorem timersRunInEveryStep : Obligations.TimersRunInEveryStep := by
  unfold Obligations.TimersRunInEveryStep
  intro s t h ht
  rcases step_healthy h ht with ⟨x, -, rfl⟩ | ⟨w, i, u, hr, hf, hd, hx, rfl⟩ <;>
    rw [State.endStep_dt_toNat, State.endStep_st_toNat, State.endStep_beeps_of_st_toNat]
  · rw [s.poll_writes x]
    exact ⟨fun _ => rfl, fun _ => ⟨rfl, rfl⟩⟩
  · obtain ⟨-, -, hdt, hst, -, -, -, -, -, -, hb⟩ := onlyNamedInstructionsWriteEachPlace i s u hx
    refine ⟨fun no15 => ?_, fun no18 => ?_⟩
    · have : u.dt = s.dt := by
        by_contra hne
        obtain ⟨x, rfl⟩ := hdt hne
        exact no15 w x hr hf hd
      rw [this]
    · have : u.st = s.st := by
        by_contra hne
        obtain ⟨x, rfl⟩ := hst hne
        exact no18 w x hr hf hd
      rw [this, hb]
      exact ⟨rfl, rfl⟩

end Sys2Proof.Machine
end

section
/-! PROOFS. 30_encoding.md: the fields of a word, and decoder, encoder and opcode map agree. -/

namespace Sys2Proof

open Machine

/-! ### The fields as numbers (30_encoding.md R71) -/

theorem fieldsOf_cls_toNat (w : Word) : (fieldsOf w).cls.toNat = w.toNat / 4096 := by
  simp only [fieldsOf, BitVec.extractLsb'_toNat, Nat.shiftRight_eq_div_pow]
  omega

theorem fieldsOf_x_toNat (w : Word) : (fieldsOf w).x.toNat = w.toNat / 256 % 16 := by
  simp only [fieldsOf, BitVec.extractLsb'_toNat, Nat.shiftRight_eq_div_pow, Nat.reducePow]

theorem fieldsOf_y_toNat (w : Word) : (fieldsOf w).y.toNat = w.toNat / 16 % 16 := by
  simp only [fieldsOf, BitVec.extractLsb'_toNat, Nat.shiftRight_eq_div_pow, Nat.reducePow]

theorem fieldsOf_n_toNat (w : Word) : (fieldsOf w).n.toNat = w.toNat % 16 := by
  simp only [fieldsOf, BitVec.extractLsb'_toNat, Nat.shiftRight_zero, Nat.reducePow]

theorem fieldsOf_nn_toNat (w : Word) : (fieldsOf w).nn.toNat = w.toNat % 256 := by
  simp only [fieldsOf, BitVec.extractLsb'_toNat, Nat.shiftRight_zero, Nat.reducePow]

theorem fieldsOf_nnn_toNat (w : Word) : (fieldsOf w).nnn.toNat = w.toNat % 4096 := by
  simp only [fieldsOf, BitVec.extractLsb'_toNat, Nat.shiftRight_zero, Nat.reducePow]

/-- NN is Y and N in a row, and NNN is X and NN in a row. -/
theorem fieldsOf_wellFormed (w : Word) : (fieldsOf w).wellFormed = true := by
  simp only [Fields.wellFormed, Fields.nnAgrees, Fields.nnnAgrees, Bool.and_eq_true, beq_iff_eq,
    fieldsOf_x_toNat, fieldsOf_y_toNat, fieldsOf_n_toNat, fieldsOf_nn_toNat, fieldsOf_nnn_toNat]
  omega

/-- Settles O1: each field is the quotient and remainder of the word that its bit range names. -/
theorem fieldsOfEveryWord : Obligations.FieldsOfEveryWord := by
  unfold Obligations.FieldsOfEveryWord
  exact fun w => ⟨fieldsOf_cls_toNat w, fieldsOf_x_toNat w, fieldsOf_y_toNat w, fieldsOf_n_toNat w,
    fieldsOf_nn_toNat w, fieldsOf_nnn_toNat w, fieldsOf_wellFormed w⟩

/-! ### From a row of the opcode map to the instruction (30_encoding.md R74) -/

/-- The instruction of the same row with its operands taken from the fields. -/
def Instr.withOperands : Instr → Fields → Instr
  | .cls, _ => .cls
  | .ret, _ => .ret
  | .jp _, f => .jp f.nnn
  | .call _, f => .call f.nnn
  | .seImm _ _, f => .seImm f.x f.nn
  | .sneImm _ _, f => .sneImm f.x f.nn
  | .seReg _ _, f => .seReg f.x f.y
  | .sneReg _ _, f => .sneReg f.x f.y
  | .ldImm _ _, f => .ldImm f.x f.nn
  | .addImm _ _, f => .addImm f.x f.nn
  | .ldReg _ _, f => .ldReg f.x f.y
  | .orReg _ _, f => .orReg f.x f.y
  | .andReg _ _, f => .andReg f.x f.y
  | .xorReg _ _, f => .xorReg f.x f.y
  | .addReg _ _, f => .addReg f.x f.y
  | .subReg _ _, f => .subReg f.x f.y
  | .shr _ _, f => .shr f.x f.y
  | .shl _ _, f => .shl f.x f.y
  | .ldI _, f => .ldI f.nnn
  | .rnd _ _, f => .rnd f.x f.nn
  | .drw _ _ _, f => .drw f.x f.y f.n
  | .skp _, f => .skp f.x
  | .sknp _, f => .sknp f.x
  | .ldVxDt _, f => .ldVxDt f.x
  | .ldVxK _, f => .ldVxK f.x
  | .ldDtVx _, f => .ldDtVx f.x
  | .ldStVx _, f => .ldStVx f.x
  | .addI _, f => .addI f.x
  | .ldF _, f => .ldF f.x
  | .ldB _, f => .ldB f.x
  | .ldMemVx _, f => .ldMemVx f.x
  | .ldVxMem _, f => .ldVxMem f.x

/-- A word that matches the row of `i` decodes to `i` with the word's own operands. -/
theorem rowDecodes_rowOf (i : Instr) : RowDecodes (rowOf i).mask (rowOf i).pattern i.withOperands := by
  cases i <;> dsimp only [rowOf]
  case cls | ret => exact rowDecodes_word (by decide)
  case jp => exact rowDecodes_class 1 rfl fun _ => decodeFields_class1
  case call => exact rowDecodes_class 2 rfl fun _ => decodeFields_class2
  case seImm => exact rowDecodes_class 3 rfl fun _ => decodeFields_class3
  case sneImm => exact rowDecodes_class 4 rfl fun _ => decodeFields_class4
  case ldImm => exact rowDecodes_class 6 rfl fun _ => decodeFields_class6
  case addImm => exact rowDecodes_class 7 rfl fun _ => decodeFields_class7
  case ldI => exact rowDecodes_class 10 rfl fun _ => decodeFields_classA
  case rnd => exact rowDecodes_class 12 rfl fun _ => decodeFields_classC
  case drw => exact rowDecodes_class 13 rfl fun _ => decodeFields_classD
  case seReg => exact rowDecodes_classN 5 0 rfl rfl fun _ hc hn => by rw [decodeFields_class5 hc, hn]; rfl
  case sneReg => exact rowDecodes_classN 9 0 rfl rfl fun _ hc hn => by rw [decodeFields_class9 hc, hn]; rfl
  case ldReg | orReg | andReg | xorReg | addReg | subReg | shr | shl =>
    exact rowDecodes_classN 8 _ rfl rfl fun _ hc hn => by rw [decodeFields_class8 hc, hn]; rfl
  case skp | sknp =>
    exact rowDecodes_classNN 14 _ rfl rfl fun _ hc hn => by rw [decodeFields_classE hc, hn]; rfl
  case ldVxDt | ldVxK | ldDtVx | ldStVx | addI | ldF | ldB | ldMemVx | ldVxMem =>
    exact rowDecodes_classNN 15 _ rfl rfl fun _ hc hn => by rw [decodeFields_classF hc, hn]; rfl

theorem OpRow.selects_iff (r : OpRow) (w : Word) : r.selects w = true ↔ w &&& r.mask = r.pattern := beq_iff_eq

theorem decode_of_selects {i : Instr} {w : Word} (h : (rowOf i).selects w = true) :
    decode w = some (i.withOperands (fieldsOf w)) :=
  rowDecodes_rowOf i w ((OpRow.selects_iff _ w).mp h)

/-! ### Decoding an encoded instruction -/

open Laws.WordSelectsRow in
theorem rowOf_selects_encode (i : Instr) : (rowOf i).selects (encode i) = true :=
  match i with
  | .cls => cls
  | .ret => ret
  | .jp nnn => jp nnn
  | .call nnn => call nnn
  | .seImm x nn => seImm x nn
  | .sneImm x nn => sneImm x nn
  | .seReg x y => seReg x y
  | .sneReg x y => sneReg x y
  | .ldImm x nn => ldImm x nn
  | .addImm x nn => addImm x nn
  | .ldReg x y => ldReg x y
  | .orReg x y => orReg x y
  | .andReg x y => andReg x y
  | .xorReg x y => xorReg x y
  | .addReg x y => addReg x y
  | .subReg x y => subReg x y
  | .shr x y => shr x y
  | .shl x y => shl x y
  | .ldI nnn => ldI nnn
  | .rnd x nn => rnd x nn
  | .drw x y n => drw x y n
  | .skp x => skp x
  | .sknp x => sknp x
  | .ldVxDt x => ldVxDt x
  | .ldVxK x => ldVxK x
  | .ldDtVx x => ldDtVx x
  | .ldStVx x => ldStVx x
  | .addI x => addI x
  | .ldF x => ldF x
  | .ldB x => ldB x
  | .ldMemVx x => ldMemVx x
  | .ldVxMem x => ldVxMem x

/-- The operands of an instruction are the fields of its word. -/
theorem withOperands_fieldsOf_encode (i : Instr) : i.withOperands (fieldsOf (encode i)) = i := by
  cases i
  case cls | ret => rfl
  case jp | call | ldI => simp only [Instr.withOperands, encode, fieldsOf_nnn]
  case seReg | sneReg | ldReg | orReg | andReg | xorReg | addReg | subReg | shr | shl | drw =>
    simp only [Instr.withOperands, encode, fieldsOf_xyn]
  all_goals simp only [Instr.withOperands, encode, fieldsOf_xnn]

/-- Settles O3: the word of `i` matches the row of `i`, so it decodes to `i` with the word's own operands, and those
are the operands of `i`. -/
theorem decodeOfEncodeIsTheInstruction : Obligations.DecodeOfEncodeIsTheInstruction := by
  unfold Obligations.DecodeOfEncodeIsTheInstruction
  intro i
  calc decode (encode i) = some (i.withOperands (fieldsOf (encode i))) := decode_of_selects (rowOf_selects_encode i)
    _ = some i := by rw [withOperands_fieldsOf_encode]

/-! ### Encoding a decoded word -/

theorem nnn_eq_word {w : Word} {c : Nibble} {nnn : Addr12} (hc : (fieldsOf w).cls = c) (hn : (fieldsOf w).nnn = nnn) :
    c ++ nnn = w := by
  rw [← hc, ← hn, word_of_nnn]

theorem xnn_eq_word {w : Word} {c : Nibble} {nn : Byte} (hc : (fieldsOf w).cls = c) (hn : (fieldsOf w).nn = nn) :
    c ++ (fieldsOf w).x ++ nn = w := by
  rw [← hc, ← hn, word_of_xnn]

theorem xyn_eq_word {w : Word} {c n : Nibble} (hc : (fieldsOf w).cls = c) (hn : (fieldsOf w).n = n) :
    c ++ (fieldsOf w).x ++ (fieldsOf w).y ++ n = w := by
  rw [← hc, ← hn, word_of_xyn]

/-- Settles O4: in each class the decoder keeps every field that it does not compare with a literal, so the word is
put together again from class, operands and literals. -/
theorem encodeOfDecodeIsTheWord : Obligations.EncodeOfDecodeIsTheWord := by
  unfold Obligations.EncodeOfDecodeIsTheWord
  intro w i h
  rw [decode] at h
  rcases nibble_cases (fieldsOf w).cls with hc | hc | hc | hc | hc | hc | hc | hc | hc | hc | hc | hc | hc |
    hc | hc | hc
  · rw [decodeFields_class0 hc, decodeClass0] at h
    split_ifs at h with hn hn <;> cases h <;> exact nnn_eq_word hc hn
  · cases (decodeFields_class1 hc).symm.trans h; exact nnn_eq_word hc rfl
  · cases (decodeFields_class2 hc).symm.trans h; exact nnn_eq_word hc rfl
  · cases (decodeFields_class3 hc).symm.trans h; exact xnn_eq_word hc rfl
  · cases (decodeFields_class4 hc).symm.trans h; exact xnn_eq_word hc rfl
  · rw [decodeFields_class5 hc] at h
    split_ifs at h with hn; cases h; exact xyn_eq_word hc hn
  · cases (decodeFields_class6 hc).symm.trans h; exact xnn_eq_word hc rfl
  · cases (decodeFields_class7 hc).symm.trans h; exact xnn_eq_word hc rfl
  · rw [decodeFields_class8 hc, decodeClass8] at h
    -- The first comparison of N with a literal that holds selects the instruction.
    iterate 8
      obtain ⟨hn, h⟩ | ⟨-, h⟩ := ite_eq_iff.mp h
      · cases h; exact xyn_eq_word hc hn
    cases h
  · rw [decodeFields_class9 hc] at h
    split_ifs at h with hn; cases h; exact xyn_eq_word hc hn
  · cases (decodeFields_classA hc).symm.trans h; exact nnn_eq_word hc rfl
  · cases (decodeFields_classB hc).symm.trans h
  · cases (decodeFields_classC hc).symm.trans h; exact xnn_eq_word hc rfl
  · cases (decodeFields_classD hc).symm.trans h; exact xyn_eq_word hc rfl
  · rw [decodeFields_classE hc, decodeClassE] at h
    split_ifs at h with hn hn <;> cases h <;> exact xnn_eq_word hc hn
  · rw [decodeFields_classF hc, decodeClassF] at h
    -- The first comparison of NN with a literal that holds selects the instruction.
    iterate 9
      obtain ⟨hn, h⟩ | ⟨-, h⟩ := ite_eq_iff.mp h
      · cases h; exact xnn_eq_word hc hn
    cases h

/-! ### The opcode map (30_encoding.md R74, R78) -/

theorem mem_opcodeRows_iff (r : OpRow) : r ∈ opcodeRows ↔ ∃ i, rowOf i = r := by
  constructor
  · intro h
    simp only [opcodeRows, ← List.map_append, List.mem_map] at h
    obtain ⟨i, -, hi⟩ := h
    exact ⟨i, hi⟩
  · rintro ⟨i, rfl⟩
    cases i <;> dsimp only [rowOf] <;> decide

theorem legalWord_iff (w : Word) : legalWord w = true ↔ ∃ i, (rowOf i).selects w = true := by
  simp only [legalWord, List.any_eq_true, mem_opcodeRows_iff]
  exact ⟨fun ⟨_, ⟨i, hi⟩, h⟩ => ⟨i, hi ▸ h⟩, fun ⟨i, h⟩ => ⟨_, ⟨i, rfl⟩, h⟩⟩

theorem rowOf_selects_of_decode {w : Word} {i : Instr} (h : decode w = some i) : (rowOf i).selects w = true :=
  encodeOfDecodeIsTheWord w i h ▸ rowOf_selects_encode i

theorem decode_isSome_eq_legalWord (w : Word) : (decode w).isSome = legalWord w := by
  rw [Bool.eq_iff_iff, legalWord_iff, Option.isSome_iff_exists]
  exact ⟨fun ⟨i, h⟩ => ⟨i, rowOf_selects_of_decode h⟩, fun ⟨_, h⟩ => ⟨_, decode_of_selects h⟩⟩

/-- A word that matches two rows makes each pattern, under the other row's mask, the same. -/
theorem OpRow.patterns_agree {r r' : OpRow} {w : Word} (h : r.selects w = true) (h' : r'.selects w = true) :
    r.pattern &&& r'.mask = r'.pattern &&& r.mask := by
  rw [← (r.selects_iff w).mp h, ← (r'.selects_iff w).mp h', BitVec.and_assoc, BitVec.and_assoc,
    BitVec.and_comm r.mask]

/-- Two rows of the map differ in a bit that both their masks fix. -/
theorem opcodeRows_disjoint :
    ∀ r ∈ opcodeRows, ∀ r' ∈ opcodeRows, r.pattern &&& r'.mask = r'.pattern &&& r.mask → r = r' := by
  decide

/-- Settles O5: a decoded word is the word of its instruction (O4), which matches the instruction's row; a word that
matches a row decodes (`decode_of_selects`); and two rows differ in a bit that both fix. -/
theorem decodeFollowsOpcodeMap : Obligations.DecodeFollowsOpcodeMap := by
  unfold Obligations.DecodeFollowsOpcodeMap
  exact ⟨decode_isSome_eq_legalWord, fun _ _ => rowOf_selects_of_decode,
    fun r hr r' hr' _ h h' => opcodeRows_disjoint r hr r' hr' (OpRow.patterns_agree h h'), rfl⟩

/-! ### Words written out -/

/-- Settles O2: the decoder evaluates on the 22 words. -/
theorem sampleWordsDecode : Obligations.SampleWordsDecode := by
  unfold Obligations.SampleWordsDecode
  decide

end Sys2Proof
end

section
/-! PROOFS. 41_control_flow.md: the skips. -/

namespace Sys2Proof.Machine

/-- An instruction that is a skip moves PC by 4 where `p` holds and by 2 elsewhere, and changes nothing else
(40_step_cycle.md R94). -/
theorem gives_of_skipIf {i : Instr} {s : State} {c : Bool} {p : Prop} [Decidable p]
    (he : exec i s = .next (s.skipIf c)) (hc : c = true ↔ p) :
    Gives i s fun t => t.pc = (if p then s.pc + 4#16 else s.pc + 2#16) ∧ s.Frame t [] := by
  obtain ⟨hpc, hframe⟩ := s.skipIf_spec c
  exact ⟨_, he, hpc.trans (if_congr hc rfl rfl), hframe⟩

/-- Settles O16: both rows decode as every row does (`rowDecodes_rowOf`), and both instructions are skips, on equality
and on inequality of VX and NN. -/
theorem immediateSkips : Obligations.ImmediateSkips := by
  unfold Obligations.ImmediateSkips
  refine ⟨rowDecodes_rowOf (.seImm 0 0), rowDecodes_rowOf (.sneImm 0 0), fun s x nn => ⟨?_, ?_⟩⟩
  · exact gives_of_skipIf (i := .seImm x nn) rfl beq_iff_eq
  · exact gives_of_skipIf (i := .sneImm x nn) rfl bne_iff_ne

end Sys2Proof.Machine
end

section
/-! PROOFS. 42_load_arith_logic.md: the instructions whose one result goes to VX. -/

namespace Sys2Proof.Machine

/-- An instruction that writes the result `b` to VX completes with PC + 2 and nothing else changed; what follows from
VX being `b` holds of the next state (42_load_arith_logic.md R131). -/
theorem gives_of_result {i : Instr} {s : State} {x : Nibble} {b : Byte} {p : State → Prop}
    (he : exec i s = s.result x b) (hp : ∀ t : State, t.getV x = b → p t) :
    Gives i s fun t => p t ∧ t.pc = s.pc + 2#16 ∧ s.Frame t [.v x] := by
  obtain ⟨t, hresult, hv, hpc, hframe⟩ := s.result_spec x b
  exact ⟨t, he.trans hresult, hp t hv, hpc, hframe⟩

/-- Settles O19: the result is NN for 6XNN and the old VY for 8XY0. -/
theorem registerLoads : Obligations.RegisterLoads := by
  unfold Obligations.RegisterLoads
  refine ⟨rowDecodes_rowOf (.ldImm 0 0), rowDecodes_rowOf (.ldReg 0 0), fun s x nn => ?_, fun s x y => ?_⟩
  · exact gives_of_result (i := .ldImm x nn) rfl fun _ hv => hv
  · exact gives_of_result (i := .ldReg x y) rfl fun _ hv => hv

/-- Settles O20: the sum of two bytes is taken modulo 256. -/
theorem addImmediateWraps : Obligations.AddImmediateWraps := by
  unfold Obligations.AddImmediateWraps
  refine ⟨rowDecodes_rowOf (.addImm 0 0), fun s x nn => gives_of_result (i := .addImm x nn) rfl fun t hv => ?_⟩
  rw [hv, BitVec.toNat_add]

/-- Settles O21: each of the three operations acts on every bit by itself. -/
theorem bitwiseLogic : Obligations.BitwiseLogic := by
  unfold Obligations.BitwiseLogic
  refine ⟨rowDecodes_rowOf (.orReg 0 0), rowDecodes_rowOf (.andReg 0 0), rowDecodes_rowOf (.xorReg 0 0),
    fun s x y => ⟨?_, ?_, ?_⟩⟩
  · exact gives_of_result (i := .orReg x y) rfl fun t hv k => by rw [hv, BitVec.getLsbD_or]
  · exact gives_of_result (i := .andReg x y) rfl fun t hv k => by rw [hv, BitVec.getLsbD_and]
  · exact gives_of_result (i := .xorReg x y) rfl fun t hv k => by rw [hv, BitVec.getLsbD_xor]

/-- The difference of two bytes is the difference of the integers modulo 256. -/
theorem toNat_sub_eq_emod (a b : Byte) : ((a - b).toNat : Int) = (a.toNat - b.toNat : Int) % 256 := by
  have hb : b.toNat < 256 := b.isLt
  rw [BitVec.toNat_sub]
  omega

/-- Settles O22: the sum and the difference of two bytes are taken modulo 256. -/
theorem registerArithmeticWraps : Obligations.RegisterArithmeticWraps := by
  unfold Obligations.RegisterArithmeticWraps
  refine ⟨rowDecodes_rowOf (.addReg 0 0), rowDecodes_rowOf (.subReg 0 0), fun s x y => ⟨?_, ?_⟩⟩
  · exact gives_of_result (i := .addReg x y) rfl fun t hv => by rw [hv, BitVec.toNat_add]
  · exact gives_of_result (i := .subReg x y) rfl fun t hv => by rw [hv, toNat_sub_eq_emod]

/-- Settles O23: a logical shift right by one bit halves VX, and Y is no operand of it. -/
theorem shiftRightDropsTheLowBit : Obligations.ShiftRightDropsTheLowBit := by
  unfold Obligations.ShiftRightDropsTheLowBit
  refine ⟨rowDecodes_rowOf (.shr 0 0), fun s x y => gives_of_result (i := .shr x y) rfl fun t hv => ?_⟩
  rw [hv, BitVec.toNat_ushiftRight, Nat.shiftRight_one]

end Sys2Proof.Machine
end

section
/-! PROOFS. 43_index_memory.md: the instructions that write I. -/

namespace Sys2Proof.Machine

/-- Only I and the program counter change. -/
theorem State.frame_i (s : State) (i p : Word) : s.Frame { s with i := i, pc := p } [.i] :=
  ⟨fun q hq => by
    cases q with
    | i => exact absurd List.mem_cons_self hq
    | mem => exact fun _ => rfl
    | v | stack | dt | st | fb | run => rfl, rfl, rfl, rfl, rfl⟩

/-- An instruction that writes `a` to I completes with PC + 2 and nothing else changed; what follows from
I being `a` holds of the next state. -/
theorem gives_of_indexWrite {j : Instr} {s : State} {a : Word} {p : State → Prop}
    (he : exec j s = .next { s with i := a }.advance) (hp : ∀ t : State, t.i = a → p t) :
    Gives j s fun t => p t ∧ t.pc = s.pc + 2#16 ∧ s.Frame t [.i] :=
  ⟨_, he, hp _ rfl, rfl, s.frame_i a (s.pc + 2#16)⟩

@[simp] theorem toNat_zextAddr (a : Addr12) : (zextAddr a).toNat = a.toNat :=
  BitVec.toNat_setWidth_of_le (by decide)

@[simp] theorem toNat_zextByte (b : Byte) : (zextByte b).toNat = b.toNat :=
  BitVec.toNat_setWidth_of_le (by decide)

/-- The largest operand, 255, still gives an address of 16 bits: the multiplication and the sum do not wrap (D9). -/
theorem toNat_glyphAddress (b : Byte) : (glyphAddress b).toNat = 0x50 + 5 * b.toNat := by
  have hb : b.toNat < 256 := b.isLt
  rw [glyphAddress, BitVec.toNat_add, BitVec.toNat_mul, toNat_zextByte]
  simp only [Config.fontBase, BitVec.toNat_ofNat]
  omega

/-- Settles O26: I takes NNN, the 16-bit sum of I and VX, or the address of the glyph of VX. -/
theorem indexRegisterWrites : Obligations.IndexRegisterWrites := by
  unfold Obligations.IndexRegisterWrites
  refine ⟨rowDecodes_rowOf (.ldI 0), rowDecodes_rowOf (.addI 0), rowDecodes_rowOf (.ldF 0), fun s nnn => ?_,
    fun s x => ⟨?_, ?_⟩⟩
  · exact gives_of_indexWrite (j := .ldI nnn) rfl fun t hi => by rw [hi, toNat_zextAddr]
  · exact gives_of_indexWrite (j := .addI x) rfl fun t hi => by rw [hi, BitVec.toNat_add, toNat_zextByte]
  · exact gives_of_indexWrite (j := .ldF x) rfl fun t hi => by rw [hi, toNat_glyphAddress]

end Sys2Proof.Machine
end

section
/-! PROOFS. 44_display.md: the flip, 00E0 and DXYN. -/

namespace Sys2Proof.Machine

/-! ### One pixel -/

theorem Framebuffer.pixel_xorPixel_self (fb : Framebuffer) {x y : Nat} (b : Bool) (hx : x < 64) (hy : y < 32) :
    Framebuffer.pixel (Framebuffer.xorPixel fb x y b) x y = (Framebuffer.pixel fb x y ^^ b) := by
  simp [Framebuffer.pixel_xorPixel fb b hx, hy]

/-- Where the column is off the screen both pictures read as off. -/
theorem Framebuffer.pixel_xorPixel_ne (fb : Framebuffer) {x y cx cy : Nat} (b : Bool) (h : (cx, cy) ≠ (x, y)) :
    Framebuffer.pixel (Framebuffer.xorPixel fb x y b) cx cy = Framebuffer.pixel fb cx cy := by
  by_cases hcx : cx < 64
  · have hpos : ¬ (cx = x ∧ cy = y ∧ cy < 32) := fun ⟨h1, h2, _⟩ => h (by rw [h1, h2])
    rw [Framebuffer.pixel_xorPixel fb b hcx, decide_eq_false hpos, Bool.false_and, Bool.xor_false]
  · rw [Framebuffer.pixel_outside _ (.inl (by omega)), Framebuffer.pixel_outside _ (.inl (by omega))]

/-- Settles O32: the report negates the new pixel, which is an XOR: it says that the old pixel and the bit agree. -/
theorem flipTable : Obligations.FlipTable := by
  unfold Obligations.FlipTable
  intro fb x y b hx hy
  have hnew := Framebuffer.pixel_xorPixel_self fb b hx hy
  refine ⟨hnew, ?_, fun cx cy h => Framebuffer.pixel_xorPixel_ne fb b h⟩
  rw [Framebuffer.flip_report, hnew]
  cases Framebuffer.pixel fb x y <;> cases b <;> rfl

/-! ### The frame of a display instruction -/

/-- Only the framebuffer, V registers (those listed) and the program counter change. -/
theorem State.frame_fb_regs {s t : State} {rs : List Nibble} (hv : ∀ r, r ∉ rs → t.getV r = s.getV r)
    (h : t = { s with v := t.v, pc := t.pc, fb := t.fb }) : s.Frame t (.fb :: rs.map .v) := by
  -- With the old picture put back, only V registers and PC differ.
  obtain ⟨hsame, hrest⟩ := State.frame_regs (s := s) (t := { t with fb := s.fb }) (rs := rs) hv (by rw [h])
  refine ⟨fun p hp => ?_, hrest⟩
  obtain ⟨hfb, hregs⟩ := not_or.mp (mt List.mem_cons.mpr hp)
  cases p with
  | fb => exact absurd rfl hfb
  | _ => exact hsame _ hregs

/-- Settles O33: the new picture is the cleared one, and the frame has no register in it. -/
theorem clearScreen : Obligations.ClearScreen := by
  unfold Obligations.ClearScreen
  exact ⟨rowDecodes_rowOf .cls, fun s => ⟨_, rfl, fun x y _ _ => Framebuffer.pixel_clear x y, rfl,
    State.frame_fb_regs (rs := []) (fun _ _ => rfl) rfl⟩⟩

/-! ### The fault of an access at I -/

/-- An access at I whose range does not lie in the memory faults on I itself, or on the first address after the memory
(43_index_memory.md R146). -/
theorem faults_of_dataFault {j : Instr} {s : State} {kind : AccessKind}
    (h : exec j s = faultWith s (dataFault j kind (max s.i.toNat 4096))) :
    Faults j s (.memoryOutOfBounds (if 0xFFF < s.i.toNat then s.i.toNat else 0x1000) kind
      (some (withFields (encode j)))) := by
  have hbad : max s.i.toNat 4096 = if 0xFFF < s.i.toNat then s.i.toNat else 0x1000 := by split <;> omega
  rw [hbad] at h
  exact h

/-! ### The sprite of DXYN -/

/-- The bytes that DXYN reads. -/
def State.spriteBytes (s : State) (n : Nibble) : List Byte :=
  (List.range n.toNat).map fun k => Memory.read s.mem (s.i.toNat + k)

/-- What DXYN draws. -/
def State.spriteDrawing (s : State) (x y n : Nibble) : Drawing :=
  drawSprite s.fb (startColumn (s.getV x)) (startRow (s.getV y)) (s.spriteBytes n)

@[simp] theorem State.length_spriteBytes (s : State) (n : Nibble) : (s.spriteBytes n).length = n.toNat := by
  simp [State.spriteBytes]

theorem State.getD_spriteBytes (s : State) {n : Nibble} {k : Nat} (h : k < n.toNat) :
    (s.spriteBytes n).getD k 0#8 = Memory.read s.mem (s.i.toNat + k) := by
  rw [List.getD_eq_getElem _ _ (by rwa [s.length_spriteBytes])]
  simp [State.spriteBytes]

/-- A pixel of the rectangle is XORed with its bit of the sprite. -/
theorem State.spriteDrawing_pixel_of_covers {s : State} {x y n : Nibble} {cx cy : Nat} (hcx : cx ≤ 63) (hcy : cy ≤ 31)
    (h : s.spriteCovers x y n cx cy) :
    Framebuffer.pixel (s.spriteDrawing x y n).fb cx cy = (Framebuffer.pixel s.fb cx cy ^^ s.spriteBit x y cx cy) := by
  unfold State.spriteCovers at h
  have hrow : cy - (s.getV y).toNat % 32 < n.toNat := by omega
  rw [State.spriteDrawing, drawSprite_pixel _ _ _ _ (by omega) (by omega), startColumn_eq, startRow_eq,
    s.length_spriteBytes, decide_eq_true h, Bool.true_and, s.getD_spriteBytes hrow, State.spriteBit]

/-- A pixel outside the rectangle keeps its value. -/
theorem State.spriteDrawing_pixel_of_not_covers {s : State} {x y n : Nibble} {cx cy : Nat} (hcx : cx ≤ 63)
    (hcy : cy ≤ 31) (h : ¬ s.spriteCovers x y n cx cy) :
    Framebuffer.pixel (s.spriteDrawing x y n).fb cx cy = Framebuffer.pixel s.fb cx cy := by
  unfold State.spriteCovers at h
  rw [State.spriteDrawing, drawSprite_pixel _ _ _ _ (by omega) (by omega), startColumn_eq, startRow_eq,
    s.length_spriteBytes, decide_eq_false h, Bool.false_and, Bool.xor_false]

/-- The draw reports a collision where a pixel of the clipped rectangle is 0 afterwards (44_display.md R153 (a)). -/
theorem State.spriteDrawing_collided (s : State) (x y n : Nibble) :
    (s.spriteDrawing x y n).collided = true ↔ ∃ cx cy, cx ≤ 63 ∧ cy ≤ 31 ∧ s.spriteCovers x y n cx cy ∧
      Framebuffer.pixel (s.spriteDrawing x y n).fb cx cy = false := by
  unfold State.spriteDrawing State.spriteCovers
  rw [drawSprite_collided, startColumn_eq, startRow_eq, s.length_spriteBytes]
  constructor
  · rintro ⟨cx, cy, h1, h2, h3, h4, hcx, hcy, hp⟩
    exact ⟨cx, cy, by omega, by omega, ⟨h1, h2, h3, h4⟩, hp⟩
  · rintro ⟨cx, cy, hcx, hcy, ⟨h1, h2, h3, h4⟩, hp⟩
    exact ⟨cx, cy, h1, h2, h3, h4, by omega, by omega, hp⟩

theorem collisionFlag_eq_zero_or_one (c : Bool) : collisionFlag c = 0#8 ∨ collisionFlag c = 1#8 := by
  cases c <;> decide

theorem collisionFlag_eq_one_iff (c : Bool) : collisionFlag c = 1#8 ↔ c = true := by
  cases c <;> decide

/-- The state after a DXYN that completes. -/
def State.afterDrw (s : State) (x y n : Nibble) : State :=
  (State.setVF { s with fb := (s.spriteDrawing x y n).fb } (collisionFlag (s.spriteDrawing x y n).collided)).advance

/-- DXYN completes with its sprite drawn, or faults on the lowest address outside the memory. -/
theorem exec_drw_cases (s : State) (x y n : Nibble) :
    ((n = 0#4 ∨ s.i.toNat + n.toNat - 1 ≤ 0xFFF) ∧ exec (.drw x y n) s = .next (s.afterDrw x y n)) ∨
    ((n ≠ 0#4 ∧ 0xFFF < s.i.toNat + n.toNat - 1) ∧
      exec (.drw x y n) s = faultWith s (dataFault (.drw x y n) .read (max s.i.toNat 4096))) := by
  have hn : n = 0#4 ↔ n.toNat = 0 := BitVec.toNat_eq
  rcases execDrw_cases x y n s with ⟨h, _, rfl, e⟩ | ⟨h, e⟩
  · exact .inl ⟨h.imp_left hn.mpr, e⟩
  · exact .inr ⟨h.imp_left (mt hn.mp), e⟩

theorem State.getV_afterDrw_vf (s : State) (x y n : Nibble) :
    (s.afterDrw x y n).getV vf = collisionFlag (s.spriteDrawing x y n).collided :=
  State.getV_setV_self _ _ _

/-- DXYN changes the framebuffer, VF and the program counter alone. -/
theorem State.frame_afterDrw (s : State) (x y n : Nibble) : s.Frame (s.afterDrw x y n) [.fb, .v vf] :=
  State.frame_fb_regs (rs := [vf]) (fun _ hr => State.getV_setV_ne _ _ (by simpa using hr)) rfl

/-- Settles O34: the state after the draw is `State.afterDrw`, whose picture, flag and frame the lemmas above describe;
the fault is that of any access at I. -/
theorem spriteIsDrawn : Obligations.SpriteIsDrawn := by
  unfold Obligations.SpriteIsDrawn
  refine ⟨rowDecodes_rowOf (.drw 0 0 0), fun s x y n hin => ?_, fun s x y n hn hout => ?_⟩
  · obtain ⟨-, e⟩ | ⟨⟨hn, hout⟩, -⟩ := exec_drw_cases s x y n
    · refine ⟨_, e, fun cx cy hcx hcy => ⟨State.spriteDrawing_pixel_of_covers hcx hcy,
        State.spriteDrawing_pixel_of_not_covers hcx hcy⟩, ?_, ?_, rfl, s.frame_afterDrw x y n⟩
      · rw [s.getV_afterDrw_vf]
        exact collisionFlag_eq_zero_or_one _
      · rw [s.getV_afterDrw_vf, collisionFlag_eq_one_iff]
        exact s.spriteDrawing_collided x y n
    · exact absurd hin (not_or.mpr ⟨hn, Nat.not_le.mpr hout⟩)
  · obtain ⟨hin, -⟩ | ⟨-, e⟩ := exec_drw_cases s x y n
    · exact absurd hin (not_or.mpr ⟨hn, Nat.not_le.mpr hout⟩)
    · exact faults_of_dataFault e

end Sys2Proof.Machine
end

section
/-! PROOFS. 60_exceptions.md: 00EE and the empty stack, and the illegal word. -/

namespace Sys2Proof.Machine

/-! ### 00EE (41_control_flow.md R110, 60_exceptions.md R172) -/

/-- Only the stack and the program counter change. -/
theorem State.frame_stack (s : State) (st : List Word) (p : Word) :
    s.Frame { s with stack := st, pc := p } [.stack] :=
  ⟨fun q hq => by
    cases q with
    | stack => exact absurd List.mem_cons_self hq
    | mem => exact fun _ => rfl
    | v | i | dt | st | fb | run => rfl, rfl, rfl, rfl, rfl⟩

theorem execRet_of_stack_append {s : State} {rest : List Word} {a : Word} (h : s.stack = rest ++ [a]) :
    execRet s = .next { s with stack := rest, pc := a } := by
  rcases execRet_cases s with ⟨hnil, -⟩ | ⟨rest', a', happ, e⟩
  · simp [h] at hnil
  · obtain ⟨rfl, ha⟩ := List.append_inj' (h.symm.trans happ) rfl
    obtain rfl := List.singleton_inj.mp ha
    exact e

theorem execRet_of_stack_nil {s : State} (h : s.stack = []) :
    execRet s = .next (s.afterFault (.stackUnderflow (withFields (encode .ret)))) := by
  rcases execRet_cases s with ⟨-, e⟩ | ⟨rest, a, happ, -⟩
  · exact e
  · simp [h] at happ

/-- Settles O12: the row decodes as every row does (`rowDecodes_rowOf`), and the stack has a last entry or is empty. -/
theorem retPopsTheReturnAddress : Obligations.RetPopsTheReturnAddress := by
  unfold Obligations.RetPopsTheReturnAddress
  refine ⟨rowDecodes_rowOf .ret, fun s rest a h => ?_, fun s h => ?_⟩
  · exact ⟨_, execRet_of_stack_append h, rfl, rfl, s.frame_stack rest a⟩
  · exact execRet_of_stack_nil h

/-! ### The illegal word (40_step_cycle.md R93, 60_exceptions.md R171) -/

theorem decode_eq_none_iff (w : Word) : decode w = none ↔ legalWord w = false := by
  rw [← decode_isSome_eq_legalWord, Option.isSome_eq_false_iff, Option.isNone_iff_eq_none]

theorem step_of_decode_none {s : State} {w : Word} (hr : s.run = .running) (hf : s.fetch = .ok w)
    (hd : decode w = none) : step s = .next (s.afterFault (.unimplementedInstruction (withFields w))) := by
  simp only [step, stepWith, hr, runStep, hf, hd, faultWith, raise_eq_afterFault, opcodeOf_eq_withFields]

/-- Settles O43: an illegal word is one that does not decode. -/
theorem illegalWordFaults : Obligations.IllegalWordFaults := by
  unfold Obligations.IllegalWordFaults
  exact fun s w hr hf hw => step_of_decode_none hr hf ((decode_eq_none_iff w).mpr hw)

end Sys2Proof.Machine
end

section
/-! PROOFS. 30_encoding.md R77: the illegal words, class by class. -/

namespace Sys2Proof

open Machine

/-- A selection that tests one literal more is empty when the literal does not match and the rest is empty. -/
theorem ite_some_eq_none_iff {p : Prop} [Decidable p] {i : Instr} {o : Option Instr} :
    (if p then some i else o) = none ↔ ¬ p ∧ o = none := by
  split <;> simp_all

theorem decodeClass0_eq_none_iff (nnn : Addr12) : decodeClass0 nnn = none ↔ nnn ≠ 0x0E0#12 ∧ nnn ≠ 0x0EE#12 := by
  simp only [decodeClass0, ite_some_eq_none_iff, ne_eq, and_true]

theorem decodeClass8_eq_none_iff (x y n : Nibble) :
    decodeClass8 x y n = none ↔ n ∈ [0x7#4, 0x8#4, 0x9#4, 0xA#4, 0xB#4, 0xC#4, 0xD#4, 0xF#4] := by
  have complement : ∀ n : Nibble, (n ∉ [0x0#4, 0x1#4, 0x2#4, 0x3#4, 0x4#4, 0x5#4, 0x6#4, 0xE#4]) ↔
      n ∈ [0x7#4, 0x8#4, 0x9#4, 0xA#4, 0xB#4, 0xC#4, 0xD#4, 0xF#4] := by decide
  rw [← complement]
  simp only [decodeClass8, ite_some_eq_none_iff, List.mem_cons, List.not_mem_nil, not_or, or_false, and_true]

theorem decodeClassE_eq_none_iff (x : Nibble) (nn : Byte) : decodeClassE x nn = none ↔ nn ∉ [0x9E#8, 0xA1#8] := by
  simp only [decodeClassE, ite_some_eq_none_iff, List.mem_cons, List.not_mem_nil, not_or, or_false, and_true]

theorem decodeClassF_eq_none_iff (x : Nibble) (nn : Byte) : decodeClassF x nn = none ↔
    nn ∉ [0x07#8, 0x0A#8, 0x15#8, 0x18#8, 0x1E#8, 0x29#8, 0x33#8, 0x55#8, 0x65#8] := by
  simp only [decodeClassF, ite_some_eq_none_iff, List.mem_cons, List.not_mem_nil, not_or, or_false, and_true]

/-- Settles O6: in the class of the word one alternative at most remains, and it says when the class's own selection
is empty. -/
theorem illegalWordsByClass : Obligations.IllegalWordsByClass := by
  unfold Obligations.IllegalWordsByClass
  intro w
  rw [decode]
  rcases nibble_cases (fieldsOf w).cls with hc | hc | hc | hc | hc | hc | hc | hc | hc | hc | hc | hc | hc |
    hc | hc | hc
  · rw [decodeFields_class0 hc, decodeClass0_eq_none_iff]; simp [hc]
  · rw [decodeFields_class1 hc]; simp [hc]
  · rw [decodeFields_class2 hc]; simp [hc]
  · rw [decodeFields_class3 hc]; simp [hc]
  · rw [decodeFields_class4 hc]; simp [hc]
  · rw [decodeFields_class5 hc, ite_some_eq_none_iff]; simp [hc]
  · rw [decodeFields_class6 hc]; simp [hc]
  · rw [decodeFields_class7 hc]; simp [hc]
  · rw [decodeFields_class8 hc, decodeClass8_eq_none_iff]; simp [hc]
  · rw [decodeFields_class9 hc, ite_some_eq_none_iff]; simp [hc]
  · rw [decodeFields_classA hc]; simp [hc]
  · rw [decodeFields_classB hc]; simp [hc]
  · rw [decodeFields_classC hc]; simp [hc]
  · rw [decodeFields_classD hc]; simp [hc]
  · rw [decodeFields_classE hc, decodeClassE_eq_none_iff]; simp [hc]
  · rw [decodeFields_classF hc, decodeClassF_eq_none_iff]; simp [hc]

end Sys2Proof
end

section
/-! PROOFS. 20_memory.md: the byte access, the range check, the canonical form, the fetch. -/

namespace Sys2Proof.Machine

/-! ### Checked access (20_memory.md R52 to R55) -/

theorem State.memRead_of_le {s : State} {a : Nat} (h : a ≤ 0xFFF) : s.memRead a = .ok (Memory.read s.mem a) :=
  (s.memRead_cases a).elim (·.2) fun ⟨hout, _⟩ => absurd h (by omega)

theorem State.memRead_of_gt {s : State} {a : Nat} (h : 0xFFF < a) : s.memRead a = .error a :=
  (s.memRead_cases a).elim (fun ⟨hin, _⟩ => absurd h (by omega)) (·.2)

theorem State.memWrite_of_le {s : State} {a : Nat} {b : Byte} (h : a ≤ 0xFFF) :
    s.memWrite a b = .ok { s with mem := Memory.write s.mem a b } :=
  (s.memWrite_cases a b).elim (·.2) fun ⟨hout, _⟩ => absurd h (by omega)

theorem State.memWrite_of_gt {s : State} {a : Nat} {b : Byte} (h : 0xFFF < a) : s.memWrite a b = .error a :=
  (s.memWrite_cases a b).elim (fun ⟨hin, _⟩ => absurd h (by omega)) (·.2)

/-- A checked read sees the memory alone, at its own address. -/
theorem State.memRead_congr {s t : State} {a : Nat} (h : Memory.read s.mem a = Memory.read t.mem a) :
    s.memRead a = t.memRead a := by
  simp only [State.memRead, h]

/-- Settles O7: a read after the write gives the written byte at its address and the old byte at any other
(`Memory.read_write`). -/
theorem byteAccessIsChecked : Obligations.ByteAccessIsChecked := by
  unfold Obligations.ByteAccessIsChecked
  intro s a b hwf
  refine ⟨fun hin => ⟨State.memRead_of_le hin, _, State.memWrite_of_le hin, ?_, fun a' hne => ?_, rfl⟩,
    fun hout => ⟨State.memRead_of_gt hout, State.memWrite_of_gt hout⟩⟩
  · rw [State.memRead_of_le hin, Memory.read_write hwf, if_pos rfl]
  · exact State.memRead_congr (by rw [Memory.read_write hwf, if_neg hne])

/-- Settles O8: a range with an address above 0xFFF is not empty, and the lowest such address is its first or 0x1000. -/
theorem lowestOutsideAddressIsReported : Obligations.LowestOutsideAddressIsReported := by
  unfold Obligations.LowestOutsideAddressIsReported
  intro a n
  refine ⟨?_, fun b => ?_⟩
  · rw [firstOutside_none]
    constructor
    · intro h c hac hcn
      omega
    · intro h
      by_contra hout
      have := h (a + n - 1) (by omega) (by omega)
      omega
  · rw [firstOutside_some]
    constructor
    · rintro ⟨hout, rfl⟩
      exact ⟨by omega, by omega, by omega, fun c hac hcb => by omega⟩
    · rintro ⟨hab, hbn, hb, hbelow⟩
      have lowest : ¬ (a < b ∧ 4096 < b) := fun ⟨h1, h2⟩ => by
        have := hbelow (b - 1) (by omega) (by omega)
        omega
      omega

/-! ### The canonical form (20_memory.md R50, R60) -/

theorem Memory.wfFrom_cons {lo a : Nat} {b : Byte} {m : Memory} :
    Memory.wfFrom lo ((a, b) :: m) = true ↔ lo ≤ a ∧ b ≠ Memory.unlisted ∧ Memory.wfFrom (a + 1) m = true := by
  simp only [Memory.wfFrom, Bool.and_eq_true, decide_eq_true_eq, bne_iff_ne, and_assoc]

@[simp] theorem Memory.read_nil (a : Nat) : Memory.read [] a = Memory.unlisted := rfl

theorem Memory.read_cons_self (a : Nat) (b : Byte) (m : Memory) : Memory.read ((a, b) :: m) a = b := if_pos rfl

theorem Memory.read_cons_ne {a a' : Nat} (b : Byte) (m : Memory) (h : a' ≠ a) :
    Memory.read ((a, b) :: m) a' = Memory.read m a' := if_neg h

/-- The first listed byte is not what the address would read as unlisted, so another canonical memory that reads alike
lists its first cell no later. -/
theorem Memory.head_le_of_read_eq {lo a a' : Nat} {b b' : Byte} {m m' : Memory}
    (h : Memory.wfFrom lo ((a, b) :: m) = true) (h' : Memory.wfFrom lo ((a', b') :: m') = true)
    (hread : Memory.read ((a, b) :: m) a = Memory.read ((a', b') :: m') a) : a' ≤ a := by
  by_contra hlt
  obtain ⟨-, hb, -⟩ := Memory.wfFrom_cons.mp h
  obtain ⟨-, hb', hm'⟩ := Memory.wfFrom_cons.mp h'
  have hfrom : Memory.wfFrom a' ((a', b') :: m') = true := Memory.wfFrom_cons.mpr ⟨le_rfl, hb', hm'⟩
  rw [Memory.read_cons_self, Memory.read_below hfrom (by omega)] at hread
  exact hb hread

/-- Cell by cell: the first cells are at the same address, so they are equal, and the rests read alike. -/
theorem Memory.eq_of_read_eq {m m' : Memory} {lo : Nat} (h : Memory.wfFrom lo m = true)
    (h' : Memory.wfFrom lo m' = true) (hread : ∀ a, Memory.read m a = Memory.read m' a) : m = m' := by
  induction m generalizing lo m' with
  | nil =>
    cases m' with
    | nil => rfl
    | cons c m' =>
      obtain ⟨a, b⟩ := c
      obtain ⟨-, hb, -⟩ := Memory.wfFrom_cons.mp h'
      exact absurd ((hread a).trans (Memory.read_cons_self a b m')).symm hb
  | cons c m ih =>
    obtain ⟨a, b⟩ := c
    obtain ⟨-, hb, hm⟩ := Memory.wfFrom_cons.mp h
    cases m' with
    | nil => exact absurd ((Memory.read_cons_self a b m).symm.trans (hread a)) hb
    | cons c' m' =>
      obtain ⟨a', b'⟩ := c'
      obtain rfl : a = a' := Nat.le_antisymm (Memory.head_le_of_read_eq h' h (hread a').symm)
        (Memory.head_le_of_read_eq h h' (hread a))
      obtain ⟨-, -, hm'⟩ := Memory.wfFrom_cons.mp h'
      obtain rfl : b = b' := by simpa only [Memory.read_cons_self] using hread a
      have hrest : m = m' := ih hm hm' fun d => by
        by_cases hd : d = a
        · rw [hd, Memory.read_below hm (Nat.lt_succ_self a), Memory.read_below hm' (Nat.lt_succ_self a)]
        · simpa only [Memory.read_cons_ne _ _ hd] using hread d
      rw [hrest]

/-- Settles O9, by induction on the cells (`Memory.eq_of_read_eq`). -/
theorem canonicalMemoryIsUnique : Obligations.CanonicalMemoryIsUnique := by
  unfold Obligations.CanonicalMemoryIsUnique
  exact fun _ _ h h' hread => Memory.eq_of_read_eq h h' hread

/-- A range that passes the check of a store keeps the memory proper. -/
theorem Memory.Proper.writeAll_of_inRange {m : Memory} {a : Nat} {bs : List Byte} (hm : Memory.Proper m)
    (h : bs.length = 0 ∨ a + bs.length ≤ 4096) : Memory.Proper (Memory.writeAll m a bs) := by
  rcases h with hnil | hin
  · rw [List.eq_nil_of_length_eq_zero hnil]
    exact hm
  · exact hm.writeAll a bs hin

theorem Memory.Proper.writeBytes {s t : State} {a : Nat} {bs : List Byte} (hm : Memory.Proper s.mem)
    (h : s.writeBytes a bs = .ok t) : Memory.Proper t.mem := by
  rcases s.writeBytes_cases a bs with ⟨hin, e⟩ | ⟨-, e⟩
  · obtain rfl := Except.ok.inj (h.symm.trans e)
    exact hm.writeAll_of_inRange hin
  · exact nomatch h.symm.trans e

/-- Settles O10: a byte store is a range store of one byte (`State.writeBytes_one`). -/
theorem storesKeepMemoryProper : Obligations.StoresKeepMemoryProper := by
  unfold Obligations.StoresKeepMemoryProper
  exact ⟨fun s _ a b hm h => hm.writeBytes ((s.writeBytes_one a b).trans h), fun _ _ _ _ hm h => hm.writeBytes h⟩

/-! ### The fetch (40_step_cycle.md R92) -/

theorem State.fetch_of_le {s : State} (h : s.pc.toNat ≤ 0xFFE) :
    s.fetch = .ok (wordOfBytes (Memory.read s.mem s.pc.toNat) (Memory.read s.mem (s.pc.toNat + 1))) :=
  s.fetch_cases.elim (·.2) fun ⟨hout, _⟩ => absurd h (by omega)

theorem State.pc_le_of_fetch {s : State} {w : Word} (h : s.fetch = .ok w) : s.pc.toNat ≤ 0xFFE :=
  s.fetch_cases.elim (·.1) fun ⟨_, e⟩ => nomatch e.symm.trans h

theorem toNat_wordOfBytes (hi lo : Byte) : (wordOfBytes hi lo).toNat = hi.toNat * 256 + lo.toNat := by
  rw [wordOfBytes, BitVec.toNat_append, ← Nat.shiftLeft_add_eq_or_of_lt lo.isLt, Nat.shiftLeft_eq]

theorem step_of_pc_gt {s : State} (hr : s.run = .running) (h : 0xFFE < s.pc.toNat) :
    step s = .next (s.afterFault (.memoryOutOfBounds (max s.pc.toNat 4096) .fetch none)) := by
  obtain ⟨hin, -⟩ | ⟨-, e⟩ := s.fetch_cases
  · omega
  · simp only [step, stepWith, hr, runStep, e, faultWith, raise_eq_afterFault]

/-- Settles O11: the fetch reads two bytes, high byte first, or reports PC where that is outside and else PC + 1. -/
theorem fetchIsBigEndianAndChecked : Obligations.FetchIsBigEndianAndChecked := by
  unfold Obligations.FetchIsBigEndianAndChecked
  refine fun s => ⟨fun hin => ⟨_, State.fetch_of_le hin, toNat_wordOfBytes _ _⟩, fun hout hr => ?_⟩
  have reported : max s.pc.toNat 4096 = if 0xFFF < s.pc.toNat then s.pc.toNat else s.pc.toNat + 1 := by
    split <;> omega
  rw [step_of_pc_gt hr hout, reported]

end Sys2Proof.Machine
end

section
/-! PROOFS. 40_step_cycle.md, 60_exceptions.md: the tick, the step by its run state, and when it faults. -/

namespace Sys2Proof.Machine

/-! ### The tick (40_step_cycle.md R98, R99) -/

theorem State.tick_writes (s : State) :
    s.tick = { s with dt := s.tick.dt, st := s.tick.st, beeps := s.tick.beeps } := rfl

/-- Settles O41: each timer counts down as `timer_down` says, and the tick names three fields. -/
theorem tickCountsDownAndBeeps : Obligations.TickCountsDownAndBeeps := by
  unfold Obligations.TickCountsDownAndBeeps
  exact fun s => ⟨timer_down s.dt, timer_down s.st, s.endStep_beeps_of_st_toNat, s.tick_writes⟩

/-! ### The step, by the run state (40_step_cycle.md R91) -/

theorem healthy_of_running {s : State} (h : s.run = .running) : s.Healthy :=
  fun e => RunState.noConfusion (h.symm.trans e)

theorem healthy_of_blocked {s : State} {x : Nibble} (h : s.run = .blocked x) : s.Healthy :=
  fun e => RunState.noConfusion (h.symm.trans e)

theorem step_of_faulted {s : State} (h : s.run = .faulted) : step s = .next s := by
  simp only [step, stepWith, h]

theorem step_of_blocked {s : State} {x : Nibble} (h : s.run = .blocked x) : step s = .next (s.poll x).endStep := by
  simp only [step, stepWith, h]

theorem step_of_decode {s : State} {w : Word} {i : Instr} (hr : s.run = .running) (hf : s.fetch = .ok w)
    (hd : decode w = some i) : step s = finishStep (exec i s) := by
  simp only [step, stepWith, hr, runStep, hf, hd]

theorem finishStep_of_healthy {t : State} (h : t.Healthy) : finishStep (.next t) = .next t.endStep := by
  rw [finishStep, if_neg h]

theorem finishStep_of_faulted {t : State} (h : t.run = .faulted) : finishStep (.next t) = .next t := by
  rw [finishStep, if_pos h]

/-- A Running step whose instruction completes. -/
theorem step_of_exec {s t : State} {w : Word} {i : Instr} (hr : s.run = .running) (hf : s.fetch = .ok w)
    (hd : decode w = some i) (hx : exec i s = .next t) (ht : t.Healthy) : step s = .next t.endStep := by
  rw [step_of_decode hr hf hd, hx, finishStep_of_healthy ht]

/-- Settles O42: the fetch gives the word at PC, and the end of the step looks at RUN after the instruction. -/
theorem stepRunsTheDecodedInstruction : Obligations.StepRunsTheDecodedInstruction := by
  unfold Obligations.StepRunsTheDecodedInstruction
  intro s i hr hpc hd
  have hstep : step s = finishStep (exec i s) := step_of_decode hr (State.fetch_of_le hpc) hd
  refine ⟨fun t hx ht => ?_, fun t hx ht => ?_, fun t => rfl⟩
  · rw [hstep, hx, finishStep_of_healthy ht]
  · rw [hstep, hx, finishStep_of_faulted ht]

/-- Settles O46: each of the six ways a step can go (`step_cases`) ends in a next state. -/
theorem everyStateHasAStep : Obligations.EveryStateHasAStep := by
  unfold Obligations.EveryStateHasAStep
  intro s
  rcases step_cases s with ⟨-, e⟩ | ⟨x, -, e⟩ | ⟨-, -, e⟩ | ⟨w, -, -, -, -, e⟩ | ⟨w, i, c, -, -, -, -, -, -, e⟩ |
    ⟨w, i, u, -, -, -, -, -, -, -, -, -, -, -, e⟩ <;> exact ⟨_, e⟩

/-! ### Which steps fault, and what a fault leaves (60_exceptions.md R174, R178) -/

/-- After a poll the core waits on, or it is Running. -/
theorem State.poll_healthy {s : State} {x : Nibble} (h : s.Healthy) : (s.poll x).Healthy := by
  unfold State.poll
  split
  · exact h
  · exact RunState.noConfusion

theorem healthy_of_running_or_blocked {s : State} (h : s.run = .running ∨ ∃ x, s.run = .blocked x) : s.Healthy :=
  h.elim healthy_of_running fun ⟨_, hb⟩ => healthy_of_blocked hb

/-- Settles O45: a step that ends Faulted is a fault of the fetch, of the decoding or of the instruction; each is
`State.afterFault`. -/
theorem faultsArePrecise : Obligations.FaultsArePrecise := by
  unfold Obligations.FaultsArePrecise
  intro s t hs h ht
  have eq {t'} (e : step s = .next t') : t = t' := Host.Outcome.next.inj (h.symm.trans e)
  rcases step_cases s with ⟨hr, -⟩ | ⟨x, hr, e⟩ | ⟨-, -, e⟩ | ⟨w, -, -, -, -, e⟩ | ⟨w, i, c, -, -, -, -, -, -, e⟩ |
    ⟨w, i, u, -, -, -, -, -, -, hrun, -, -, -, -, e⟩
  · exact absurd hr hs
  · obtain rfl := eq e
    exact absurd ht (State.poll_healthy hs)
  · exact ⟨_, eq e⟩
  · exact ⟨_, eq e⟩
  · exact ⟨c, eq e⟩
  · obtain rfl := eq e
    exact absurd ht (healthy_of_running_or_blocked hrun)

/-- The right side of O47 speaks of the word fetched and the instruction decoded. -/
theorem checksPass_iff {s : State} {w : Word} {i : Instr} (hpc : s.pc.toNat ≤ 0xFFE) (hf : s.fetch = .ok w)
    (hd : decode w = some i) :
    (s.pc.toNat ≤ 0xFFE ∧ ∃ w i, s.fetch = .ok w ∧ decode w = some i ∧ SafeInstr s i) ↔ SafeInstr s i := by
  constructor
  · rintro ⟨-, w', i', hf', hd', hsafe⟩
    obtain rfl : w = w' := Except.ok.inj (hf.symm.trans hf')
    obtain rfl : i = i' := Option.some.inj (hd.symm.trans hd')
    exact hsafe
  · exact fun hsafe => ⟨hpc, w, i, hf, hd, hsafe⟩

/-- Settles O47: of a Running step's four ways (`step_cases`) the three that fail a check fault, and the fourth does
not. -/
theorem stepIsHealthyExactlyWhenChecksPass : Obligations.StepIsHealthyExactlyWhenChecksPass := by
  unfold Obligations.StepIsHealthyExactlyWhenChecksPass
  intro s t hr h
  have eq {t'} (e : step s = .next t') : t = t' := Host.Outcome.next.inj (h.symm.trans e)
  have faulted (c : FaultCause) : ¬ (s.afterFault c).Healthy := fun hh => hh rfl
  rcases step_cases s with ⟨hr', -⟩ | ⟨x, hr', -⟩ | ⟨-, hout, e⟩ | ⟨w, -, -, hf, hd, e⟩ |
    ⟨w, i, c, -, hpc, hf, hd, hunsafe, -, e⟩ | ⟨w, i, u, -, hpc, hf, hd, hsafe, -, hrun, -, -, -, -, e⟩
  · exact nomatch hr.symm.trans hr'
  · exact nomatch hr.symm.trans hr'
  · obtain rfl := eq e
    exact iff_of_false (faulted _) fun ⟨hpc, _⟩ => absurd hpc (by omega)
  · obtain rfl := eq e
    refine iff_of_false (faulted _) fun ⟨_, w', i, hf', hd', _⟩ => ?_
    obtain rfl : w = w' := Except.ok.inj (hf.symm.trans hf')
    exact nomatch hd.symm.trans hd'
  · obtain rfl := eq e
    exact iff_of_false (faulted c) (mt (checksPass_iff hpc hf hd).mp hunsafe)
  · obtain rfl := eq e
    exact iff_of_true (healthy_of_running_or_blocked hrun) ((checksPass_iff hpc hf hd).mpr hsafe)

end Sys2Proof.Machine
end

section
/-! PROOFS. 41_control_flow.md: the jump, the call, the register skips, and a call with its return. -/

namespace Sys2Proof.Machine

/-- Settles O13: PC takes the operand and nothing else is written. -/
theorem jpSetsPc : Obligations.JpSetsPc := by
  unfold Obligations.JpSetsPc
  exact ⟨rowDecodes_rowOf (.jp 0), fun s nnn => ⟨_, rfl, toNat_zextAddr nnn, s.frame_pc (zextAddr nnn)⟩⟩

/-! ### 2NNN (41_control_flow.md R112, 60_exceptions.md R173) -/

/-- The state after a call that completes. -/
def State.afterCall (s : State) (nnn : Addr12) : State :=
  { s with stack := s.stack ++ [s.pc + 2#16], pc := zextAddr nnn }

/-- This hardware has no stack limit (decision D6). -/
theorem exec_call (nnn : Addr12) (s : State) : exec (.call nnn) s = .next (s.afterCall nnn) := rfl

theorem callWith_full {limit : Nat} {nnn : Addr12} {s : State} (h : s.sp = limit) :
    callWith (some limit) nnn s = .next (s.afterFault (.stackOverflow (withFields (encode (.call nnn))))) := by
  rw [callWith, if_pos (congrArg some h.symm)]
  rfl

theorem callWith_not_full {limit : Nat} {nnn : Addr12} {s : State} (h : s.sp ≠ limit) :
    callWith (some limit) nnn s = .next (s.afterCall nnn) := by
  rw [callWith, if_neg fun e => h (Option.some.inj e).symm]
  rfl

/-- Settles O14: the stack gets one entry more, PC + 2 at 16 bits. -/
theorem callPushesTheReturnAddress : Obligations.CallPushesTheReturnAddress := by
  unfold Obligations.CallPushesTheReturnAddress
  refine ⟨rowDecodes_rowOf (.call 0), fun s nnn => ⟨_, exec_call nnn s, ?_, ?_, toNat_zextAddr nnn, s.frame_stack _ _⟩⟩
  · exact ⟨_, rfl, BitVec.toNat_add s.pc 2#16⟩
  · exact List.length_append

/-- Settles O15: the limit is compared with the number of entries, and no limit equals no number. -/
theorem finiteStackLimitOverflows : Obligations.FiniteStackLimitOverflows := by
  unfold Obligations.FiniteStackLimitOverflows
  exact ⟨fun _ _ _ h => callWith_full h, fun _ _ _ h => callWith_not_full h, fun _ _ => rfl⟩

/-! ### 5XY0, 9XY0 (41_control_flow.md R115, R116) -/

theorem decode_eq_none_of_n_ne_zero {w : Word} (hc : (fieldsOf w).cls = 5#4 ∨ (fieldsOf w).cls = 9#4)
    (hn : (fieldsOf w).n ≠ 0#4) : decode w = none := by
  rw [decode]
  rcases hc with hc | hc
  · rw [decodeFields_class5 hc, if_neg hn]
  · rw [decodeFields_class9 hc, if_neg hn]

theorem gives_seReg (s : State) (x y : Nibble) : Gives (.seReg x y) s fun t =>
    t.pc = (if s.getV x = s.getV y then s.pc + 4#16 else s.pc + 2#16) ∧ s.Frame t [] :=
  gives_of_skipIf (i := .seReg x y) rfl beq_iff_eq

theorem gives_sneReg (s : State) (x y : Nibble) : Gives (.sneReg x y) s fun t =>
    t.pc = (if s.getV x ≠ s.getV y then s.pc + 4#16 else s.pc + 2#16) ∧ s.Frame t [] :=
  gives_of_skipIf (i := .sneReg x y) rfl bne_iff_ne

/-- Settles O17: both are skips, on equality and on inequality of two registers, and a register equals itself. -/
theorem registerSkips : Obligations.RegisterSkips := by
  unfold Obligations.RegisterSkips
  refine ⟨rowDecodes_rowOf (.seReg 0 0), rowDecodes_rowOf (.sneReg 0 0), fun w hw => ?_,
    fun s x y => ⟨gives_seReg s x y, gives_sneReg s x y⟩, fun s x => ⟨?_, ?_⟩⟩
  · exact decode_eq_none_of_n_ne_zero (hw.imp (cls_of_masked · (by decide)) (cls_of_masked · (by decide)))
  · obtain ⟨t, e, hpc, -⟩ := gives_seReg s x x
    exact ⟨t, e, hpc.trans (if_pos rfl)⟩
  · obtain ⟨t, e, hpc, -⟩ := gives_sneReg s x x
    exact ⟨t, e, hpc.trans (if_neg (not_not_intro rfl))⟩

/-! ### A call and its return (95_test_vectors.md S3) -/

/-- Settles O18: the call's step leads to the 00EE with the return address on top, and the return's step takes it
off. The first word was fetched, so PC + 2 does not wrap. -/
theorem callThenRetComesBack : Obligations.CallThenRetComesBack := by
  unfold Obligations.CallThenRetComesBack
  intro s nnn w hr hf hd hret
  have hcall : step s = .next (s.afterCall nnn).endStep :=
    step_of_exec hr hf hd (exec_call nnn s) (healthy_of_running hr)
  have hpop : exec .ret (s.afterCall nnn).endStep =
      .next { (s.afterCall nnn).endStep with stack := s.stack, pc := s.pc + 2#16 } := execRet_of_stack_append rfl
  have hpc : (s.pc + 2#16).toNat = s.pc.toNat + 2 := by
    have := State.pc_le_of_fetch hf
    bv_omega
  exact ⟨_, _, hcall, step_of_exec hr hret (by decide) hpop (healthy_of_running hr), hpc, rfl, hr, fun _ => rfl, rfl,
    rfl, rfl⟩

end Sys2Proof.Machine
end

section
/-! PROOFS. 42_load_arith_logic.md: 8XYE and CXNN. -/

namespace Sys2Proof.Machine

/-! ### 8XYE (42_load_arith_logic.md R129) -/

theorem toNat_lowBitFlag (b : Byte) : (lowBitFlag b).toNat = b.toNat % 2 := by
  rw [lowBitFlag, BitVec.toNat_and]
  exact Nat.and_one_is_mod b.toNat

theorem toNat_shiftLeft_one (b : Byte) : (b <<< 1).toNat = b.toNat * 2 % 256 := by
  rw [BitVec.toNat_shiftLeft, Nat.shiftLeft_eq, Nat.pow_one]

/-- The state after 8XYE: VF first, then VX shifted as it reads after that. -/
def State.afterShl (s : State) (x : Nibble) : State :=
  ((s.setVF (lowBitFlag (s.getV x))).setV x ((s.setVF (lowBitFlag (s.getV x))).getV x <<< 1)).advance

theorem exec_shl (x y : Nibble) (s : State) : exec (.shl x y) s = .next (s.afterShl x) := rfl

theorem State.getV_afterShl_ne (s : State) {x r : Nibble} (hx : r ≠ x) (hf : r ≠ vf) :
    (s.afterShl x).getV r = s.getV r :=
  (State.getV_setV_ne _ _ hx).trans (State.getV_setV_ne s _ hf)

theorem State.getV_afterShl_self (s : State) {x : Nibble} (h : x ≠ vf) : (s.afterShl x).getV x = s.getV x <<< 1 := by
  rw [State.afterShl, State.getV_advance, State.getV_setV_self, State.getV_setVF, if_neg h]

theorem State.getV_afterShl_vf (s : State) {x : Nibble} (h : x ≠ vf) :
    (s.afterShl x).getV vf = lowBitFlag (s.getV x) := by
  rw [State.afterShl, State.getV_advance, State.getV_setV_ne _ _ h.symm, State.getV_setVF, if_pos rfl]

/-- VF as the operand: the shift acts on the flag just written (decision D11). -/
theorem State.getV_afterShl_vf_vf (s : State) : (s.afterShl vf).getV vf = lowBitFlag (s.getV vf) <<< 1 := by
  rw [State.afterShl, State.getV_advance, State.getV_setV_self, State.getV_setVF, if_pos rfl]

/-- Settles O24: VX and VF after the two writes, for X not F and for X = F. -/
theorem shiftLeftFlagsTheLowBit : Obligations.ShiftLeftFlagsTheLowBit := by
  unfold Obligations.ShiftLeftFlagsTheLowBit
  refine ⟨rowDecodes_rowOf (.shl 0 0), fun s x y h => ?_, fun s y => ?_⟩
  · refine ⟨_, exec_shl x y s, ?_, ?_, rfl, State.frame_regs (rs := [x, vf]) (fun r hr => ?_) rfl⟩
    · rw [s.getV_afterShl_self h, toNat_shiftLeft_one]
    · rw [s.getV_afterShl_vf h, toNat_lowBitFlag]
    · obtain ⟨hx, hf⟩ : r ≠ x ∧ r ≠ vf := by simpa using hr
      exact s.getV_afterShl_ne hx hf
  · refine ⟨_, exec_shl vf y s, ?_, rfl, State.frame_regs (rs := [vf]) (fun r hr => ?_) rfl⟩
    · rw [s.getV_afterShl_vf_vf, toNat_shiftLeft_one, toNat_lowBitFlag]
      exact Nat.mod_eq_of_lt (by omega)
    · have hf : r ≠ vf := by simpa using hr
      exact s.getV_afterShl_ne hf hf

/-! ### CXNN (42_load_arith_logic.md R130) -/

theorem State.rnd_unlisted {s : State} (h : s.inputs = []) : s.rnd = Config.freeRnd s.drawn := by
  simp only [State.rnd, h]

/-- Settles O25: the mask acts on every bit by itself; the byte is that of the step's input. -/
theorem randomByteIsMasked : Obligations.RandomByteIsMasked := by
  unfold Obligations.RandomByteIsMasked
  refine ⟨rowDecodes_rowOf (.rnd 0 0), fun s x nn => ⟨?_, s.rnd_listed, State.rnd_unlisted⟩⟩
  exact gives_of_result (i := .rnd x nn) rfl fun t hv k => by rw [hv, BitVec.getLsbD_and]

end Sys2Proof.Machine
end

section
/-! PROOFS. 43_index_memory.md: FX33, FX55 and FX65, and what is read or fetched after a store. -/

namespace Sys2Proof.Machine

/-! ### A store at I that completes -/

/-- The state after bytes are stored at I. -/
def State.afterStore (s : State) (bs : List Byte) : State :=
  State.advance { s with mem := Memory.writeAll s.mem s.i.toNat bs }

theorem State.frame_afterStore (s : State) (bs : List Byte) : s.Frame (s.afterStore bs) [.mem] :=
  s.frame_mem _ _

/-- FX33 stores its digits, or faults on the lowest address outside the memory. -/
theorem exec_ldB_cases (s : State) (x : Nibble) :
    (s.i.toNat + 2 ≤ 0xFFF ∧ exec (.ldB x) s = .next (s.afterStore (decimalDigits (s.getV x)))) ∨
    (0xFFF < s.i.toNat + 2 ∧ exec (.ldB x) s = faultWith s (dataFault (.ldB x) .write (max s.i.toNat 4096))) := by
  have hlen : (decimalDigits (s.getV x)).length = 3 := rfl
  rcases s.storeAtI_cases (.ldB x) (decimalDigits (s.getV x)) with ⟨h, e⟩ | ⟨h, e⟩ <;> rw [hlen] at h
  · exact .inl ⟨by omega, e⟩
  · exact .inr ⟨by omega, e⟩

/-- FX55 stores its registers, or faults on the lowest address outside the memory. -/
theorem exec_ldMemVx_cases (s : State) (x : Nibble) :
    (s.i.toNat + x.toNat ≤ 0xFFF ∧ exec (.ldMemVx x) s = .next (s.afterStore (s.regsTo x))) ∨
    (0xFFF < s.i.toNat + x.toNat ∧
      exec (.ldMemVx x) s = faultWith s (dataFault (.ldMemVx x) .write (max s.i.toNat 4096))) := by
  rcases s.storeAtI_cases (.ldMemVx x) (s.regsTo x) with ⟨h, e⟩ | ⟨h, e⟩ <;> rw [length_regsTo] at h
  · exact .inl ⟨by omega, e⟩
  · exact .inr ⟨by omega, e⟩

theorem exec_ldB_of_le {s : State} {x : Nibble} (h : s.i.toNat + 2 ≤ 0xFFF) :
    exec (.ldB x) s = .next (s.afterStore (decimalDigits (s.getV x))) :=
  (exec_ldB_cases s x).elim (·.2) fun ⟨hout, _⟩ => absurd h (by omega)

theorem exec_ldMemVx_of_le {s : State} {x : Nibble} (h : s.i.toNat + x.toNat ≤ 0xFFF) :
    exec (.ldMemVx x) s = .next (s.afterStore (s.regsTo x)) :=
  (exec_ldMemVx_cases s x).elim (·.2) fun ⟨hout, _⟩ => absurd h (by omega)

/-! ### The memory after the store -/

theorem read_afterStore_regsTo {s : State} (hwf : Memory.wf s.mem = true) (x : Nibble) (a : Nat) :
    Memory.read (s.afterStore (s.regsTo x)).mem a = s.byteAfterRegs x a := by
  have hx : x.toNat < 16 := x.isLt
  simp only [State.afterStore, State.advance_mem, Memory.read_writeAll hwf, length_regsTo, State.byteAfterRegs]
  by_cases hin : s.i.toNat ≤ a ∧ a ≤ s.i.toNat + x.toNat
  · have hk : (BitVec.ofNat 4 (a - s.i.toNat)).toNat = a - s.i.toNat := Nat.mod_eq_of_lt (by omega)
    rw [if_pos (by omega), if_pos hin, ← getD_regsTo s x _ (by omega), hk]
  · rw [if_neg (by omega), if_neg hin]

theorem read_afterStore_decimalDigits {s : State} (hwf : Memory.wf s.mem = true) (x : Nibble) (a : Nat) :
    Memory.read (s.afterStore (decimalDigits (s.getV x))).mem a = s.byteAfterDigits x a := by
  simp only [State.afterStore, State.advance_mem, Memory.read_writeAll hwf, State.byteAfterDigits, decimalDigits_eq,
    List.length_cons, List.length_nil]
  by_cases h0 : a = s.i.toNat
  · simp [h0]
  · by_cases h1 : a = s.i.toNat + 1
    · simp [h1]
    · by_cases h2 : a = s.i.toNat + 2
      · simp [h2]
      · rw [if_neg (by omega), if_neg h0, if_neg h1, if_neg h2]

theorem State.byteAfterRegs_add (s : State) {x k : Nibble} (h : k.toNat ≤ x.toNat) :
    s.byteAfterRegs x (s.i.toNat + k.toNat) = s.getV k := by
  rw [State.byteAfterRegs, if_pos (by omega), Nat.add_sub_cancel_left, BitVec.ofNat_toNat, BitVec.setWidth_eq]

/-- Settles O27: the bytes after the store are those of `State.byteAfterDigits`, and a digit fits in a byte. -/
theorem decimalDigitsAreStored : Obligations.DecimalDigitsAreStored := by
  unfold Obligations.DecimalDigitsAreStored
  refine ⟨rowDecodes_rowOf (.ldB 0), fun s x hwf hin => ?_, fun s x hout => ?_⟩
  · have hv : (s.getV x).toNat < 256 := (s.getV x).isLt
    refine ⟨_, exec_ldB_of_le hin, ?_, ?_, ?_, fun a ha => ?_, rfl, s.frame_afterStore _⟩ <;>
      rw [read_afterStore_decimalDigits hwf, State.byteAfterDigits]
    · rw [if_pos rfl, BitVec.toNat_ofNat]
      omega
    · rw [if_neg (by omega), if_pos rfl, BitVec.toNat_ofNat]
      omega
    · rw [if_neg (by omega), if_neg (by omega), if_pos rfl, BitVec.toNat_ofNat]
      omega
    · rw [if_neg (by omega), if_neg (by omega), if_neg (by omega)]
  · obtain ⟨hin, -⟩ | ⟨-, e⟩ := exec_ldB_cases s x
    · omega
    · exact faults_of_dataFault e

/-- Settles O28: the bytes after the store are those of `State.byteAfterRegs`. -/
theorem registersAreStored : Obligations.RegistersAreStored := by
  unfold Obligations.RegistersAreStored
  refine ⟨rowDecodes_rowOf (.ldMemVx 0), fun s x hwf hin => ?_, fun s x hout => ?_⟩
  · refine ⟨_, exec_ldMemVx_of_le hin, fun k hk => ?_, fun a ha => ?_, rfl, s.frame_afterStore _⟩ <;>
      rw [read_afterStore_regsTo hwf]
    · exact s.byteAfterRegs_add hk
    · rw [State.byteAfterRegs, if_neg ha]
  · obtain ⟨hin, -⟩ | ⟨-, e⟩ := exec_ldMemVx_cases s x
    · omega
    · exact faults_of_dataFault e

/-! ### FX65 (43_index_memory.md R145) -/

/-- The state after V0 to VX are loaded from I on. -/
def State.afterLoadRegs (s : State) (x : Nibble) : State :=
  State.advance { s with
    v := setRegs s.v 0 ((List.range (x.toNat + 1)).map fun k => Memory.read s.mem (s.i.toNat + k)) }

theorem exec_ldVxMem_of_le {s : State} {x : Nibble} (h : s.i.toNat + x.toNat ≤ 0xFFF) :
    exec (.ldVxMem x) s = .next (s.afterLoadRegs x) :=
  (execLdVxMem_cases x s).elim (·.2) fun ⟨hout, _⟩ => absurd h (by omega)

theorem State.getV_afterLoadRegs (s : State) (x k : Nibble) :
    (s.afterLoadRegs x).getV k = if k.toNat ≤ x.toNat then Memory.read s.mem (s.i.toNat + k.toNat) else s.getV k := by
  rw [State.afterLoadRegs, State.getV_advance, getV_setRegs, List.length_map, List.length_range]
  by_cases hk : k.toNat ≤ x.toNat
  · rw [if_pos (by omega), if_pos hk, List.getD_eq_getElem _ _ (by simp; omega)]
    simp
  · rw [if_neg (by omega), if_neg hk]

/-- The registers up to VX, as the table of 10_state.md R21 lists them. -/
theorem not_mem_writtenRegs_ldVxMem {x r : Nibble} (h : r ∉ writtenRegs (.ldVxMem x)) : ¬ r.toNat ≤ x.toNat :=
  fun hle => h (List.mem_map.mpr ⟨r.toNat, List.mem_range.mpr (by omega), by simp⟩)

theorem State.frame_afterLoadRegs (s : State) (x : Nibble) :
    s.Frame (s.afterLoadRegs x) ((writtenRegs (.ldVxMem x)).map .v) :=
  State.frame_regs (fun r hr => by rw [s.getV_afterLoadRegs, if_neg (not_mem_writtenRegs_ldVxMem hr)]) rfl

/-- Settles O29: a register up to VX takes its byte, any other keeps its value (`State.getV_afterLoadRegs`). -/
theorem registersAreLoaded : Obligations.RegistersAreLoaded := by
  unfold Obligations.RegistersAreLoaded
  refine ⟨rowDecodes_rowOf (.ldVxMem 0), fun s x hin => ?_, fun s x hout => ?_⟩
  · refine ⟨_, exec_ldVxMem_of_le hin, fun k hk => ?_, fun k hk => ?_, rfl, ?_⟩
    · rw [s.getV_afterLoadRegs, if_pos hk]
    · rw [s.getV_afterLoadRegs, if_neg (by omega)]
    · simpa only [writtenRegs, List.map_map, Function.comp_def] using s.frame_afterLoadRegs x
  · obtain ⟨hin, -⟩ | ⟨-, e⟩ := execLdVxMem_cases x s
    · omega
    · exact faults_of_dataFault e

/-- Settles O30: FX65 reads at I + K the byte that FX55 stored there, which is VK. -/
theorem storedRegistersLoadBack : Obligations.StoredRegistersLoadBack := by
  unfold Obligations.StoredRegistersLoadBack
  intro s x hwf hin
  refine ⟨_, exec_ldMemVx_of_le hin, fun u (hi : u.i = s.i) hmem => ?_⟩
  refine ⟨_, exec_ldVxMem_of_le (by rwa [hi]), fun k hk => ?_⟩
  have hin_range : s.i.toNat + k.toNat ≤ s.i.toNat + x.toNat := by omega
  calc (u.afterLoadRegs x).getV k = Memory.read u.mem (s.i.toNat + k.toNat) := by
        rw [u.getV_afterLoadRegs, if_pos hk, hi]
    _ = Memory.read (s.afterStore (s.regsTo x)).mem (s.i.toNat + k.toNat) := hmem _ (Nat.le_add_right _ _) hin_range
    _ = s.byteAfterRegs x (s.i.toNat + k.toNat) := read_afterStore_regsTo hwf x _
    _ = s.getV k := s.byteAfterRegs_add hk

/-! ### Fetching what was stored (20_memory.md R64) -/

/-- After the step of an instruction that stores bytes at I, the fetch takes the two bytes at PC + 2 and PC + 3 from
the memory after the store. -/
theorem fetch_after_store {s : State} {w : Word} {j : Instr} {bs : List Byte} {byteAfter : Nat → Byte}
    (hr : s.run = .running) (hf : s.fetch = .ok w) (hd : decode w = some j) (hx : exec j s = .next (s.afterStore bs))
    (hread : ∀ a, Memory.read (s.afterStore bs).mem a = byteAfter a) (hpc : s.pc.toNat + 3 ≤ 0xFFF) :
    ∃ t, step s = .next t ∧ t.run = .running ∧
      t.fetch = .ok (wordOfBytes (byteAfter (s.pc.toNat + 2)) (byteAfter (s.pc.toNat + 3))) := by
  have hnext : (s.afterStore bs).endStep.pc.toNat = s.pc.toNat + 2 := by
    rw [State.endStep_pc, State.afterStore, State.advance_pc]
    bv_omega
  refine ⟨_, step_of_exec hr hf hd hx (healthy_of_running hr), hr, ?_⟩
  rw [State.fetch_of_le (by omega), hnext, State.endStep_mem, hread, hread]

/-- Settles O31: FX55 and FX33 store at I, and what each leaves at an address is `State.byteAfterRegs` and
`State.byteAfterDigits`. -/
theorem fetchSeesThePreviousStore : Obligations.FetchSeesThePreviousStore := by
  unfold Obligations.FetchSeesThePreviousStore
  constructor
  · intro s x w hwf hr hf hd hin hpc
    exact fetch_after_store hr hf hd (exec_ldMemVx_of_le hin) (read_afterStore_regsTo hwf x) hpc
  · intro s x w hwf hr hf hd hin hpc
    exact fetch_after_store hr hf hd (exec_ldB_of_le hin) (read_afterStore_decimalDigits hwf x) hpc

end Sys2Proof.Machine
end

section
/-! PROOFS. 44_display.md R153 (c): the same sprite drawn twice. -/

namespace Sys2Proof.Machine

theorem exec_drw_of_inRange {s : State} {x y n : Nibble} (h : n = 0#4 ∨ s.i.toNat + n.toNat - 1 ≤ 0xFFF) :
    exec (.drw x y n) s = .next (s.afterDrw x y n) :=
  (exec_drw_cases s x y n).elim (·.2) fun ⟨⟨hn, hout⟩, _⟩ => absurd h (not_or.mpr ⟨hn, Nat.not_le.mpr hout⟩)

@[simp] theorem State.fb_afterDrw (s : State) (x y n : Nibble) :
    (s.afterDrw x y n).fb = (s.spriteDrawing x y n).fb := rfl

theorem State.getV_afterDrw_ne (s : State) (x y n : Nibble) {r : Nibble} (h : r ≠ vf) :
    (s.afterDrw x y n).getV r = s.getV r :=
  State.getV_setV_ne _ _ h

/-- DXYN writes VF, so where neither coordinate is VF the next DXYN has the same rectangle and the same bits. -/
theorem State.spriteCovers_afterDrw (s : State) {x y n : Nibble} (hx : x ≠ vf) (hy : y ≠ vf) (cx cy : Nat) :
    (s.afterDrw x y n).spriteCovers x y n cx cy ↔ s.spriteCovers x y n cx cy := by
  rw [State.spriteCovers, State.spriteCovers, s.getV_afterDrw_ne x y n hx, s.getV_afterDrw_ne x y n hy]

theorem State.spriteBit_afterDrw (s : State) {x y n : Nibble} (hx : x ≠ vf) (hy : y ≠ vf) (cx cy : Nat) :
    (s.afterDrw x y n).spriteBit x y cx cy = s.spriteBit x y cx cy := by
  rw [State.spriteBit, State.spriteBit, s.getV_afterDrw_ne x y n hx, s.getV_afterDrw_ne x y n hy]
  rfl

/-- A pixel that is XORed twice with the same bit is the old pixel. -/
theorem State.spriteDrawing_afterDrw_fb (s : State) {x y n : Nibble} (hx : x ≠ vf) (hy : y ≠ vf) :
    ((s.afterDrw x y n).spriteDrawing x y n).fb = s.fb := by
  refine Framebuffer.ext_pixel fun cx cy hcx hcy => ?_
  by_cases hcov : s.spriteCovers x y n cx cy
  · rw [State.spriteDrawing_pixel_of_covers (by omega) (by omega) ((s.spriteCovers_afterDrw hx hy cx cy).mpr hcov),
      s.spriteBit_afterDrw hx hy, s.fb_afterDrw, State.spriteDrawing_pixel_of_covers (by omega) (by omega) hcov,
      Bool.xor_assoc, Bool.xor_self, Bool.xor_false]
  · rw [State.spriteDrawing_pixel_of_not_covers (by omega) (by omega)
        (mt (s.spriteCovers_afterDrw hx hy cx cy).mp hcov),
      s.fb_afterDrw, State.spriteDrawing_pixel_of_not_covers (by omega) (by omega) hcov]

/-- Settles O35: the second picture is the old one, and the second draw reports a collision where a pixel of the same
rectangle is 0 in it. -/
theorem drawingTwiceRestoresTheScreen : Obligations.DrawingTwiceRestoresTheScreen := by
  unfold Obligations.DrawingTwiceRestoresTheScreen
  intro s x y n hx hy hin
  have hscreen := s.spriteDrawing_afterDrw_fb (n := n) hx hy
  refine ⟨_, exec_drw_of_inRange hin, _, exec_drw_of_inRange hin, hscreen, ?_⟩
  rw [State.getV_afterDrw_vf, collisionFlag_eq_one_iff, State.spriteDrawing_collided]
  simp only [s.spriteCovers_afterDrw hx hy, hscreen]

end Sys2Proof.Machine
end

section
/-! PROOFS. 45_keypad_timers.md, 40_step_cycle.md R96, R97: the keypad, the wait for a key, the timers. -/

namespace Sys2Proof.Machine

/-! ### EX9E, EXA1 (45_keypad_timers.md R160, R161) -/

/-- The check of a key skip passed, so the low nibble of VX is VX. -/
theorem State.skipOnKey_of_le {s : State} {j : Instr} {x : Nibble} {want : Bool} (h : (s.getV x).toNat ≤ 15) :
    s.skipOnKey j x want = .next (s.skipIf (s.keys.getLsbD (s.getV x).toNat == want)) := by
  rcases s.skipOnKey_cases j x want with ⟨-, e⟩ | ⟨hout, -⟩
  · have hk : ((s.getV x).setWidth 4).toNat = (s.getV x).toNat := by
      rw [BitVec.toNat_setWidth]
      omega
    rw [e, keyDown, hk]
  · omega

theorem State.skipOnKey_of_gt {s : State} {j : Instr} {x : Nibble} {want : Bool} (h : 15 < (s.getV x).toNat) :
    s.skipOnKey j x want = .next (s.afterFault (.invalidKey (s.getV x) (withFields (encode j)))) :=
  (s.skipOnKey_cases j x want).elim (fun ⟨hin, _⟩ => absurd h (by omega)) (·.2)

theorem State.keys_unlisted {s : State} (h : s.inputs = []) : s.keys = Config.freeKeys s.drawn := by
  simp only [State.keys, h]

/-- Settles O36: both are key skips, on a held and on a released key. -/
theorem keySkips : Obligations.KeySkips := by
  unfold Obligations.KeySkips
  refine ⟨rowDecodes_rowOf (.skp 0), rowDecodes_rowOf (.sknp 0), fun s x h => ⟨?_, ?_⟩, fun s x h => ⟨?_, ?_⟩,
    State.keys_listed, fun _ => State.keys_unlisted⟩
  · exact gives_of_skipIf (i := .skp x) (State.skipOnKey_of_le h) beq_iff_eq
  · exact gives_of_skipIf (i := .sknp x) (State.skipOnKey_of_le h) beq_iff_eq
  · exact State.skipOnKey_of_gt h
  · exact State.skipOnKey_of_gt h

/-! ### AnyKey (40_step_cycle.md R96) -/

theorem keyOrder_nodup : Config.keyOrder.Nodup := by
  refine (List.nodup_finRange 16).map fun j k h => Config.keyPermutation.injective ?_
  exact BitVec.ofFin.inj h

theorem find?_keyOrder_of_one_held {keys : BitVec 16} {k : Nibble} (h : ∀ j : Nibble, keyDown keys j = true ↔ j = k) :
    Config.keyOrder.find? (keyDown keys) = some k := by
  obtain ⟨j, hj⟩ := Option.isSome_iff_exists.mp (List.find?_isSome.mpr ⟨k, mem_keyOrder k, (h k).mpr rfl⟩)
  rw [hj, (h j).mp (List.find?_some hj)]

/-- Where one key or none is held the answer does not depend on the order, and the first held key of KEY_ORDER is
that answer. -/
theorem anyKey_eq_find? (keys : BitVec 16) : anyKey keys = Config.keyOrder.find? (keyDown keys) := by
  have held (k : Nibble) : keyDown keys k = true ↔ k ∈ allKeys.filter (keyDown keys) := by
    simp only [List.mem_filter, mem_allKeys, true_and]
  unfold anyKey anyKeyIn
  split
  · next hnone =>
    refine (List.find?_eq_none.mpr fun k _ hk => ?_).symm
    rw [held, hnone] at hk
    exact List.not_mem_nil hk
  · next k hone =>
    refine (find?_keyOrder_of_one_held fun j => ?_).symm
    rw [held, hone, List.mem_singleton]
  · rfl

theorem anyKey_zero : anyKey 0#16 = none := by decide

theorem anyKey_of_one_held {keys : BitVec 16} {k : Nibble} (h : ∀ j : Nibble, keys.getLsbD j.toNat = true ↔ j = k) :
    anyKey keys = some k :=
  (anyKey_eq_find? keys).trans (find?_keyOrder_of_one_held h)

/-- Settles O39: KEY_ORDER is a permutation of the 16 keys, and AnyKey its first held key (`anyKey_eq_find?`). -/
theorem anyKeyFollowsKeyOrder : Obligations.AnyKeyFollowsKeyOrder := by
  unfold Obligations.AnyKeyFollowsKeyOrder
  exact ⟨keyOrder_nodup, mem_keyOrder, anyKey_eq_find?, anyKey_zero, fun _ _ => anyKey_of_one_held⟩

/-! ### The wait for a key (45_keypad_timers.md R162, 40_step_cycle.md R97) -/

/-- Only RUN, the timers (each where it is listed) and the program counter change. -/
theorem State.frame_run_timers {s t : State} {ps : List Place} (hrun : .run ∉ ps → t.run = s.run)
    (hdt : .dt ∉ ps → t.dt = s.dt) (hst : .st ∉ ps → t.st = s.st)
    (h : t = { s with run := t.run, dt := t.dt, st := t.st, pc := t.pc }) : s.Frame t ps := by
  refine ⟨fun p hp => ?_, by rw [h], by rw [h], by rw [h], by rw [h]⟩
  cases p with
  | run => exact hrun hp
  | dt => exact hdt hp
  | st => exact hst hp
  | mem => intro a; rw [h]
  | v | i | stack | fb => rw [h]; rfl

/-- Settles O37: FX0A writes RUN and PC. -/
theorem keyWaitBegins : Obligations.KeyWaitBegins := by
  unfold Obligations.KeyWaitBegins
  exact ⟨rowDecodes_rowOf (.ldVxK 0), fun s x => ⟨_, rfl, rfl, rfl,
    State.frame_run_timers (ps := [.run]) (absurd List.mem_cons_self) (fun _ => rfl) (fun _ => rfl) rfl⟩⟩

theorem State.poll_of_none {s : State} (x : Nibble) (h : anyKey s.keys = none) : s.poll x = s := by
  simp only [State.poll, h]

theorem State.poll_of_some {s : State} {k : Nibble} (x : Nibble) (h : anyKey s.keys = some k) :
    s.poll x = { s.setV x (k.setWidth 8) with run := .running } := by
  simp only [State.poll, h]

/-- Settles O38: the poll writes VX and RUN on a hit and nothing on a miss, and the end of the step follows. -/
theorem blockedStepPolls : Obligations.BlockedStepPolls := by
  unfold Obligations.BlockedStepPolls
  refine ⟨fun s x hr hmiss => ?_, fun s x k hr hhit => ?_⟩
  · rw [step_of_blocked hr, State.poll_of_none x hmiss]
  · have hv : (s.setV x (k.setWidth 8)).getV x = k.setWidth 8 := s.getV_setV_self x _
    refine ⟨_, step_of_blocked hr, ?_⟩
    rw [State.poll_of_some x hhit]
    refine ⟨rfl, ?_, rfl, fun y hy => s.getV_setV_ne _ hy, rfl, rfl, rfl, rfl, rfl, State.endStep_dt_toNat _,
      State.endStep_st_toNat _, State.endStep_beeps_of_st_toNat _⟩
    exact (congrArg BitVec.toNat hv).trans (BitVec.toNat_setWidth_of_le (by decide))

/-! ### FX07, FX15, FX18 (45_keypad_timers.md R163 to R165) -/

/-- Settles O40: FX07 has the shape of a register load, FX15 and FX18 write one timer; the end of the step counts both
timers down. -/
theorem timerMoves : Obligations.TimerMoves := by
  unfold Obligations.TimerMoves
  refine ⟨rowDecodes_rowOf (.ldVxDt 0), rowDecodes_rowOf (.ldDtVx 0), rowDecodes_rowOf (.ldStVx 0),
    fun s x => ⟨?_, ?_, ?_⟩⟩
  · obtain ⟨t, e, hv, hpc, hframe⟩ := s.result_spec x s.dt
    have hdt : t.dt = s.dt := hframe.1 .dt (by simp)
    exact ⟨t, e, hv, by rw [State.endStep_dt_toNat, hdt, hv], hpc, hframe⟩
  · exact ⟨_, rfl, rfl, State.endStep_dt_toNat _, rfl,
      State.frame_run_timers (ps := [.dt]) (fun _ => rfl) (absurd List.mem_cons_self) (fun _ => rfl) rfl⟩
  · exact ⟨_, rfl, rfl, State.endStep_st_toNat _, State.endStep_beeps_of_st_toNat _, rfl,
      State.frame_run_timers (ps := [.st]) (fun _ => rfl) (fun _ => rfl) (absurd List.mem_cons_self) rfl⟩

end Sys2Proof.Machine
end

section
/-! PROOFS. 70_reset_and_hazards.md, 40_step_cycle.md R90, R101: power-on, load, reset, cycle(n), and a Faulted core. -/

namespace Sys2Proof.Machine

/-! ### Power-on (70_reset_and_hazards.md R201) -/

@[simp] theorem State.getV_reset (x : Nibble) : State.reset.getV x = 0#8 := Vector.getElem_replicate _

/-- Settles O55: the listed memory is empty, the register file and the screen are zero throughout. -/
theorem powerOnState : Obligations.PowerOnState := by
  unfold Obligations.PowerOnState
  exact ⟨Memory.read_nil, rfl, State.getV_reset, rfl, rfl, rfl, rfl, Framebuffer.pixel_clear, rfl, rfl⟩

/-- Settles O56: the word at 0x200 is 0x0000, which does not decode. -/
theorem firstStepWithoutLoadFaults : Obligations.FirstStepWithoutLoadFaults := by
  unfold Obligations.FirstStepWithoutLoadFaults
  exact step_of_decode_none rfl (by decide) (by decide)

/-! ### load (70_reset_and_hazards.md R202, R206) -/

theorem State.loadWith_of_fits {s : State} {rom : List Byte} (font : Vector Byte 80) (h : rom.length ≤ 3584) :
    s.loadWith font rom =
      { s with mem := Memory.writeAll (Memory.writeAll s.mem 0x050 font.toList) 0x200 rom, pc := 0x200#16 } :=
  (s.loadWith_cases font rom).elim (·.2) fun ⟨hlong, _⟩ => absurd h (by omega)

theorem State.loadWith_of_overlong {s : State} {rom : List Byte} (font : Vector Byte 80) (h : 3584 < rom.length) :
    s.loadWith font rom =
      State.raiseOnce { s with mem := s.overlongMemory rom } (.memoryOutOfBounds 0x1000 .load none) :=
  (s.loadWith_cases font rom).elim (fun ⟨hfits, _⟩ => absurd h (by omega)) (·.2)

/-- The memory after the font and then the ROM are placed. -/
theorem Memory.read_fontAndRom {m : Memory} (hwf : Memory.wf m = true) (font : Vector Byte 80) (rom : List Byte)
    (a : Nat) : Memory.read (Memory.writeAll (Memory.writeAll m 0x050 font.toList) 0x200 rom) a =
      if 0x200 ≤ a ∧ a < 0x200 + rom.length then rom.getD (a - 0x200) 0#8
      else if 0x050 ≤ a ∧ a < 0x0A0 then font.toList.getD (a - 0x050) 0#8
      else Memory.read m a := by
  rw [Memory.read_writeAll (Memory.wf_writeAll _ _ hwf), Memory.read_writeAll hwf, Vector.length_toList]

/-- Settles O57: the two ranges do not overlap, and load writes memory and PC alone. -/
theorem loadPlacesFontAndRom : Obligations.LoadPlacesFontAndRom := by
  unfold Obligations.LoadPlacesFontAndRom
  intro font rom s hwf hfits
  rw [State.loadWith_of_fits font hfits]
  refine ⟨fun k hk => ?_, fun k hk => ?_, fun a hfont hrom => ?_, rfl⟩
  · rw [Memory.read_fontAndRom hwf, if_neg (by omega), if_pos (by omega), Nat.add_sub_cancel_left,
      List.getD_eq_getElem _ _ (by rwa [Vector.length_toList]), Vector.getElem_toList]
  · rw [Memory.read_fontAndRom hwf, if_pos (by omega), Nat.add_sub_cancel_left, List.getD_eq_getElem _ _ hk]
  · rw [Memory.read_fontAndRom hwf, if_neg hrom, if_neg (by omega)]

theorem State.raiseOnce_of_healthy {s : State} {c : FaultCause} (h : s.Healthy) : s.raiseOnce c = s.afterFault c :=
  if_neg h

theorem State.raiseOnce_of_faulted {s : State} {c : FaultCause} (h : s.run = .faulted) : s.raiseOnce c = s :=
  if_pos h

theorem State.read_overlongMemory_of_lt {s : State} (hwf : Memory.wf s.mem = true) (rom : List Byte) {a : Nat}
    (h : a < 0x050) : Memory.read (s.overlongMemory rom) a = Memory.read s.mem a := by
  obtain ⟨bs, -, hmem⟩ := s.overlongMemory_eq rom
  rw [hmem, Memory.read_writeAll hwf, if_neg (by omega)]

/-- Settles O58: the fault is raised on the state with its memory replaced from 0x050 on. -/
theorem overlongLoadFaults : Obligations.OverlongLoadFaults := by
  unfold Obligations.OverlongLoadFaults
  intro font rom s hwf hlong hs
  have hs' : State.Healthy { s with mem := s.overlongMemory rom } := hs
  rw [State.loadWith_of_overlong font hlong, State.raiseOnce_of_healthy hs']
  exact ⟨rfl, rfl, fun a ha => State.read_overlongMemory_of_lt hwf rom ha, rfl⟩

/-- Settles O59: reset names two fields. -/
theorem resetClearsTheScreenOnly : Obligations.ResetClearsTheScreenOnly := by
  unfold Obligations.ResetClearsTheScreenOnly
  exact fun s => ⟨Framebuffer.pixel_clear, rfl, rfl⟩

/-! ### cycle(n) (40_step_cycle.md R90) -/

theorem cycle_of_faulted {s : State} (n : Nat) (h : s.run = .faulted) : cycle n s = .next s := by
  cases n with
  | zero => rfl
  | succ n => rw [cycle, if_pos h]

theorem cycle_succ_of_step {s t : State} (n : Nat) (hs : s.Healthy) (h : step s = .next t) :
    cycle (n + 1) s = cycle n t := by
  rw [cycle, if_neg hs, h]

theorem cycle_total (n : Nat) (s : State) : ∃ t, cycle n s = .next t := by
  induction n generalizing s with
  | zero => exact ⟨s, rfl⟩
  | succ n ih =>
    by_cases hs : s.run = .faulted
    · exact ⟨s, cycle_of_faulted _ hs⟩
    · obtain ⟨t, h⟩ := everyStateHasAStep s
      rw [cycle_succ_of_step n hs h]
      exact ih t

theorem cycle_add {m n : Nat} {s t : State} (h : cycle m s = .next t) : cycle (m + n) s = cycle n t := by
  induction m generalizing s with
  | zero =>
    obtain rfl := Host.Outcome.next.inj h
    rw [Nat.zero_add]
  | succ m ih =>
    by_cases hs : s.run = .faulted
    · obtain rfl := Host.Outcome.next.inj ((cycle_of_faulted _ hs).symm.trans h)
      rw [cycle_of_faulted _ hs, cycle_of_faulted _ hs]
    · obtain ⟨u, hu⟩ := everyStateHasAStep s
      rw [cycle_succ_of_step m hs hu] at h
      rw [Nat.succ_add, cycle_succ_of_step _ hs hu]
      exact ih h

/-- Settles O60: cycle is the recursion on its number of steps, which a Faulted core ends. -/
theorem cycleIsUpToNSteps : Obligations.CycleIsUpToNSteps := by
  unfold Obligations.CycleIsUpToNSteps
  refine ⟨fun _ => rfl, fun n _ _ hs h => cycle_succ_of_step n hs h, fun _ _ _ _ => cycle_add,
    fun n s t hs h ht => ?_, cycle_total⟩
  rw [cycle_succ_of_step n hs h, cycle_of_faulted n ht]

/-! ### A Faulted core (40_step_cycle.md R101, 60_exceptions.md R177) -/

theorem State.loadWith_keeps_fault {s : State} (h : s.run = .faulted) (font : Vector Byte 80) (rom : List Byte) :
    (s.loadWith font rom).run = .faulted ∧ (s.loadWith font rom).fault = s.fault := by
  rcases s.loadWith_cases font rom with ⟨-, e⟩ | ⟨-, e⟩ <;> rw [e]
  · exact ⟨h, rfl⟩
  · have h' : State.run { s with mem := s.overlongMemory rom } = .faulted := h
    rw [State.raiseOnce_of_faulted h']
    exact ⟨h, rfl⟩

/-- Settles O44: no step is taken, and load and reset write other fields. -/
theorem faultedIsTerminal : Obligations.FaultedIsTerminal := by
  unfold Obligations.FaultedIsTerminal
  exact fun s h => ⟨step_of_faulted h, fun n => cycle_of_faulted n h, s.loadWith_keeps_fault h, h, rfl⟩

end Sys2Proof.Machine
end

section
/-! PROOFS. 10_state.md, 20_memory.md: the invariant, which every step and every host operation keeps. -/

namespace Sys2Proof.Machine

/-! ### What an instruction does to memory, stack and program counter -/

theorem Memory.Proper.storeAtI {s t : State} {j : Instr} {bs : List Byte} (hm : Memory.Proper s.mem)
    (h : s.storeAtI j bs = .next t) : Memory.Proper t.mem := by
  rcases s.storeAtI_cases j bs with ⟨hin, e⟩ | ⟨-, e⟩ <;> obtain rfl := Host.Outcome.next.inj (h.symm.trans e)
  · exact hm.writeAll_of_inRange hin
  · exact hm

/-- FX33 and FX55 alone write memory (O52), and both do it by a checked store. -/
theorem exec_keeps_memoryProper {i : Instr} {s t : State} (hm : Memory.Proper s.mem) (h : exec i s = .next t) :
    Memory.Proper t.mem := by
  obtain ⟨-, -, -, -, -, hmem, -⟩ := onlyNamedInstructionsWriteEachPlace i s t h
  by_cases hkept : t.mem = s.mem
  · rwa [hkept]
  · rcases hmem hkept with ⟨x, rfl⟩ | ⟨x, rfl⟩ <;> exact hm.storeAtI h

/-- 00EE and 2NNN alone write the stack (O52): an entry is an old one, or the address after the call. -/
theorem exec_stack_entry {i : Instr} {s t : State} {a : Word} (h : exec i s = .next t) (ha : a ∈ t.stack) :
    a ∈ s.stack ∨ a = s.pc + 2#16 := by
  obtain ⟨-, hstack, -⟩ := onlyNamedInstructionsWriteEachPlace i s t h
  by_cases hkept : t.stack = s.stack
  · exact .inl (hkept ▸ ha)
  · rcases hstack hkept with rfl | ⟨nnn, rfl⟩
    · rcases execRet_cases s with ⟨-, e⟩ | ⟨rest, r, hs, e⟩ <;> obtain rfl := Host.Outcome.next.inj (h.symm.trans e)
      · exact .inl ha
      · exact .inl (hs ▸ List.mem_append_left [r] ha)
    · obtain rfl := Host.Outcome.next.inj h
      exact (List.mem_append.mp ha).imp_right List.mem_singleton.mp

/-- An instruction whose two outcomes are to complete in `u` and to fault. -/
theorem next_of_cases {i : Instr} {s t u : State} {c : FaultCause} {p q : Prop} (h : exec i s = .next t)
    (hcases : (p ∧ exec i s = .next u) ∨ (q ∧ exec i s = faultWith s c)) : t = u ∨ t = s.afterFault c :=
  hcases.imp (fun ⟨_, e⟩ => Host.Outcome.next.inj (h.symm.trans e)) fun ⟨_, e⟩ =>
    Host.Outcome.next.inj (h.symm.trans e)

/-- `p` is where an instruction at PC can go: it stays (a fault), moves on or skips, or takes an operand NNN or a
return address (40_step_cycle.md R94, 41_control_flow.md). -/
def State.CanReach (s : State) (p : Word) : Prop :=
  p = s.pc ∨ p = s.pc + 2#16 ∨ p = s.pc + 4#16 ∨ p.toNat ≤ 0xFFF ∨ p ∈ s.stack

theorem State.canReach_pc (s : State) : s.CanReach s.pc := .inl rfl

theorem State.canReach_advance (s : State) : s.CanReach s.advance.pc := .inr (.inl rfl)

theorem State.canReach_skipIf (s : State) (c : Bool) : s.CanReach (s.skipIf c).pc := by
  cases c
  · exact .inr (.inl rfl)
  · exact .inr (.inr (.inl rfl))

theorem State.canReach_zextAddr (s : State) (nnn : Addr12) : s.CanReach (zextAddr nnn) := by
  have hlt : nnn.toNat < 4096 := nnn.isLt
  exact .inr (.inr (.inr (.inl (by rw [toNat_zextAddr]; omega))))

theorem State.canReach_of_mem_stack {s : State} {p : Word} (h : p ∈ s.stack) : s.CanReach p :=
  .inr (.inr (.inr (.inr h)))

theorem exec_canReach {i : Instr} {s t : State} (h : exec i s = .next t) : s.CanReach t.pc := by
  cases i
  case ret =>
    rcases execRet_cases s with ⟨-, e⟩ | ⟨rest, r, hs, e⟩ <;> obtain rfl := Host.Outcome.next.inj (h.symm.trans e)
    · exact s.canReach_pc
    · exact State.canReach_of_mem_stack (hs ▸ List.mem_append_right rest List.mem_cons_self)
  case jp nnn | call nnn =>
    obtain rfl := Host.Outcome.next.inj h
    exact s.canReach_zextAddr nnn
  case seImm | sneImm | seReg | sneReg =>
    obtain rfl := Host.Outcome.next.inj h
    exact s.canReach_skipIf _
  case skp x =>
    obtain rfl | rfl := next_of_cases h (s.skipOnKey_cases (.skp x) x true)
    · exact s.canReach_skipIf _
    · exact s.canReach_pc
  case sknp x =>
    obtain rfl | rfl := next_of_cases h (s.skipOnKey_cases (.sknp x) x false)
    · exact s.canReach_skipIf _
    · exact s.canReach_pc
  case ldB x =>
    obtain rfl | rfl := next_of_cases h (exec_ldB_cases s x)
    · exact s.canReach_advance
    · exact s.canReach_pc
  case ldMemVx x =>
    obtain rfl | rfl := next_of_cases h (exec_ldMemVx_cases s x)
    · exact s.canReach_advance
    · exact s.canReach_pc
  case ldVxMem x =>
    obtain rfl | rfl := next_of_cases h (execLdVxMem_cases x s)
    · exact s.canReach_advance
    · exact s.canReach_pc
  case drw x y n =>
    obtain rfl | rfl := next_of_cases h (exec_drw_cases s x y n)
    · exact s.canReach_advance
    · exact s.canReach_pc
  all_goals
    obtain rfl := Host.Outcome.next.inj h
    exact s.canReach_advance

/-- From a PC that can be fetched from, 4 bytes further is 0x1002 at most, and a return address is at most 0x1000
(10_state.md R25). -/
theorem exec_keeps_pcInRange {i : Instr} {s t : State} (hpc : s.pc.toNat ≤ 0xFFE) (hs : s.PcInRange)
    (h : exec i s = .next t) : t.PcInRange := by
  obtain ⟨-, hstack⟩ := hs
  have h2 : (s.pc + 2#16).toNat = s.pc.toNat + 2 := by bv_omega
  have h4 : (s.pc + 4#16).toNat = s.pc.toNat + 4 := by bv_omega
  constructor
  · rcases exec_canReach h with e | e | e | hnnn | hret
    · rw [e]; omega
    · rw [e]; omega
    · rw [e]; omega
    · omega
    · have := hstack _ hret; omega
  · intro a ha
    rcases exec_stack_entry h ha with hold | rfl
    · exact hstack a hold
    · omega

/-! ### The invariant in a step -/

/-- A fault writes RUN and FAULT, which the invariant wants to agree. -/
theorem State.Inv.afterFault {s : State} (h : s.Inv) (c : FaultCause) : (s.afterFault c).Inv := by
  obtain ⟨hmem, hpc, -⟩ := h
  exact ⟨hmem, hpc, nofun, fun hrun => absurd rfl hrun⟩

theorem State.FaultLatched.of_healthy {s t : State} (h : s.FaultLatched) (hs : s.Healthy) (ht : t.Healthy)
    (hf : t.fault = s.fault) : t.FaultLatched :=
  ⟨fun _ => ht, fun _ => hf.trans (h.mpr hs)⟩

/-- The poll writes V and RUN, and the end of a step timers and inputs. -/
theorem State.Inv.blockedStep {s : State} {x : Nibble} (h : s.Inv) (hr : s.run = .blocked x) :
    (s.poll x).endStep.Inv := by
  obtain ⟨hmem, hpc, hfault⟩ := h
  have hs := healthy_of_blocked hr
  have ht : (s.poll x).endStep.Healthy := State.poll_healthy hs
  have hf : (s.poll x).endStep.fault = s.fault := by rw [s.poll_writes x]; rfl
  refine ⟨?_, ?_, hfault.of_healthy hs ht hf⟩ <;> rw [s.poll_writes x]
  · exact hmem
  · exact hpc

/-- An instruction that completes keeps memory, PC and stack in their ranges and does not touch FAULT. -/
theorem State.Inv.execStep {i : Instr} {s u : State} (h : s.Inv) (hs : s.Healthy) (hpc : s.pc.toNat ≤ 0xFFE)
    (hx : exec i s = .next u) (hu : u.Healthy) (hf : u.fault = s.fault) : u.Inv := by
  obtain ⟨hmem, hrange, hfault⟩ := h
  exact ⟨exec_keeps_memoryProper hmem hx, exec_keeps_pcInRange hpc hrange hx, hfault.of_healthy hs hu hf⟩

/-- Settles O48: of the six ways of a step (`step_cases`), a Faulted core stays as it is, a Blocked one polls, three
fault, and the last completes its instruction. -/
theorem stepKeepsInvariant : Obligations.StepKeepsInvariant := by
  unfold Obligations.StepKeepsInvariant
  intro s t hinv h
  have eq {t'} (e : step s = .next t') : t = t' := Host.Outcome.next.inj (h.symm.trans e)
  rcases step_cases s with ⟨-, e⟩ | ⟨x, hr, e⟩ | ⟨-, -, e⟩ | ⟨w, -, -, -, -, e⟩ | ⟨w, i, c, -, -, -, -, -, -, e⟩ |
    ⟨w, i, u, hr, hpc, -, -, -, hx, hrun, hf, -, -, -, e⟩ <;> obtain rfl := eq e
  · exact hinv
  · exact hinv.blockedStep hr
  · exact hinv.afterFault _
  · exact hinv.afterFault _
  · exact hinv.afterFault c
  · have hu : u.Inv := hinv.execStep (healthy_of_running hr) hpc hx (healthy_of_running_or_blocked hrun) hf
    exact hu

/-! ### Power-on and the host operations -/

/-- Settles O49: no memory is listed, the stack is empty, and the core is Running with no fault. -/
theorem resetMeetsInvariant : Obligations.ResetMeetsInvariant := by
  unfold Obligations.ResetMeetsInvariant
  exact ⟨⟨rfl, nofun⟩, ⟨by decide, nofun⟩, fun _ => healthy_of_running rfl, fun _ => rfl⟩

theorem State.Inv.withMem {s : State} {m : Memory} (h : s.Inv) (hm : Memory.Proper m) :
    State.Inv { s with mem := m } := by
  obtain ⟨-, hpc, hfault⟩ := h
  exact ⟨hm, hpc, hfault⟩

/-- PC at the reset vector, whatever the screen. -/
theorem State.Inv.atRomOrigin {s : State} (h : s.Inv) (fb : Framebuffer) :
    State.Inv { s with fb := fb, pc := 0x200#16 } := by
  obtain ⟨hmem, ⟨-, hstack⟩, hfault⟩ := h
  exact ⟨hmem, ⟨show (0x200#16).toNat ≤ 0x1002 by decide, hstack⟩, hfault⟩

theorem State.Inv.raiseOnce {s : State} (h : s.Inv) (c : FaultCause) : (s.raiseOnce c).Inv := by
  by_cases hs : s.run = .faulted
  · rwa [State.raiseOnce_of_faulted hs]
  · rw [State.raiseOnce_of_healthy hs]
    exact h.afterFault c

theorem State.Inv.loadWith {s : State} (h : s.Inv) (font : Vector Byte 80) (rom : List Byte) :
    (s.loadWith font rom).Inv := by
  have hmem : Memory.Proper s.mem := h.1
  rcases s.loadWith_cases font rom with ⟨hfits, e⟩ | ⟨-, e⟩ <;> rw [e]
  · have hfont : Memory.Proper (Memory.writeAll s.mem 0x050 font.toList) :=
      hmem.writeAll _ _ (by rw [Vector.length_toList]; decide)
    have hrom := hfont.writeAll 0x200 rom (by simp only [Config.memSize]; omega)
    exact (h.withMem hrom).atRomOrigin s.fb
  · obtain ⟨bs, hlen, hover⟩ := s.overlongMemory_eq rom
    have hfree : Memory.Proper (s.overlongMemory rom) := by
      rw [hover]
      exact hmem.writeAll _ _ (by rw [hlen]; decide)
    exact (h.withMem hfree).raiseOnce _

theorem State.Inv.cycle {n : Nat} {s t : State} (hs : s.Inv) (h : cycle n s = .next t) : t.Inv := by
  induction n generalizing s with
  | zero =>
    obtain rfl := Host.Outcome.next.inj h
    exact hs
  | succ n ih =>
    by_cases hr : s.run = .faulted
    · obtain rfl := Host.Outcome.next.inj ((cycle_of_faulted _ hr).symm.trans h)
      exact hs
    · obtain ⟨u, hu⟩ := everyStateHasAStep s
      rw [cycle_succ_of_step n hr hu] at h
      exact ih (stepKeepsInvariant s u hs hu) h

/-- Settles O50: a load stores inside the memory or faults, reset sets PC to 0x200, and cycle is an induction on its
steps (O48). -/
theorem hostOperationsKeepInvariant : Obligations.HostOperationsKeepInvariant := by
  unfold Obligations.HostOperationsKeepInvariant
  exact ⟨fun _ font rom h => h.loadWith font rom, fun _ h => h.atRomOrigin _, fun _ _ _ h hc => h.cycle hc⟩

end Sys2Proof.Machine
end

section
/-! PROOFS. 10_state.md R21, 60_exceptions.md R185: which V registers an instruction writes, and a wait of n steps. -/

namespace Sys2Proof.Machine

/-- Settles O51: an instruction with a result writes its VX, 8XYE and DXYN also VF, FX65 its range; a fault and all
other instructions leave the register file as it is. -/
theorem onlyListedRegistersAreWritten : Obligations.OnlyListedRegistersAreWritten := by
  unfold Obligations.OnlyListedRegistersAreWritten
  intro i s t r h hr
  cases i
  case ldImm | addImm | ldReg | orReg | andReg | xorReg | addReg | subReg | shr | rnd | ldVxDt =>
    obtain rfl := Host.Outcome.next.inj h
    exact s.getV_setV_ne _ (by simpa [writtenRegs] using hr)
  case shl x y =>
    obtain rfl := Host.Outcome.next.inj h
    obtain ⟨hx, hf⟩ : r ≠ x ∧ r ≠ vf := by simpa [writtenRegs] using hr
    exact s.getV_afterShl_ne hx hf
  case drw x y n =>
    obtain rfl | rfl := next_of_cases h (exec_drw_cases s x y n)
    · exact s.getV_afterDrw_ne x y n (by simpa [writtenRegs] using hr)
    · rfl
  case ldVxMem x =>
    obtain rfl | rfl := next_of_cases h (execLdVxMem_cases x s)
    · exact (s.getV_afterLoadRegs x r).trans (if_neg (not_mem_writtenRegs_ldVxMem hr))
    · rfl
  case ret =>
    rcases execRet_cases s with ⟨-, e⟩ | ⟨_, _, -, e⟩ <;> obtain rfl := Host.Outcome.next.inj (h.symm.trans e) <;> rfl
  case skp x => obtain rfl | rfl := next_of_cases h (s.skipOnKey_cases (.skp x) x true) <;> rfl
  case sknp x => obtain rfl | rfl := next_of_cases h (s.skipOnKey_cases (.sknp x) x false) <;> rfl
  case ldB x => obtain rfl | rfl := next_of_cases h (exec_ldB_cases s x) <;> rfl
  case ldMemVx x => obtain rfl | rfl := next_of_cases h (exec_ldMemVx_cases s x) <;> rfl
  all_goals
    obtain rfl := Host.Outcome.next.inj h
    rfl

/-- A Blocked step with no key held is the end of a step alone. -/
theorem step_of_blocked_of_no_key {s : State} {x : Nibble} {u : StepInput} {us : List StepInput}
    (hr : s.run = .blocked x) (hi : s.inputs = u :: us) (hu : u.keys = 0#16) : step s = .next s.endStep := by
  have hmiss : anyKey s.keys = none := by rw [s.keys_listed u us hi, hu, anyKey_zero]
  rw [step_of_blocked hr, State.poll_of_none x hmiss]

/-- Settles O54, by induction on the number of steps: the first step is the end of a step alone. -/
theorem blockedCoreWaitsWhileTimersRun : Obligations.BlockedCoreWaitsWhileTimersRun := by
  unfold Obligations.BlockedCoreWaitsWhileTimersRun
  intro n
  induction n with
  | zero =>
    intro s x hr _ _
    refine ⟨s, rfl, hr, rfl, rfl, rfl, rfl, rfl, rfl, rfl, rfl, rfl, rfl, ?_⟩
    rw [if_neg (by omega), Nat.add_zero]
  | succ n ih =>
    intro s x hr hlen hkeys
    obtain ⟨u, us, hi⟩ := List.exists_cons_of_length_pos (show 0 < s.inputs.length by omega)
    rw [hi, List.take_succ_cons] at hkeys
    have hstep : step s = .next s.endStep := step_of_blocked_of_no_key hr hi (hkeys u List.mem_cons_self)
    have htail : s.endStep.inputs = us := by rw [State.endStep_inputs, hi, List.tail_cons]
    obtain ⟨t, hcycle, hrun, hpc, hv, hi', hstack, hmem, hfb, hfault, hinputs, hdt, hst, hbeeps⟩ :=
      ih s.endStep x hr (by rw [htail]; rw [hi, List.length_cons] at hlen; omega)
        (by rw [htail]; exact fun v hv => hkeys v (List.mem_cons_of_mem u hv))
    refine ⟨t, (cycle_succ_of_step n (healthy_of_blocked hr) hstep).trans hcycle, hrun, hpc, hv, hi', hstack, hmem, hfb,
      hfault, ?_, ?_, ?_, ?_⟩
    · rw [hinputs, htail, hi, List.drop_succ_cons]
    · rw [hdt, State.endStep_dt_toNat]
      omega
    · rw [hst, State.endStep_st_toNat]
      omega
    · rw [hbeeps, State.endStep_st_toNat, State.endStep_beeps_of_st_toNat]
      split_ifs <;> omega

end Sys2Proof.Machine
end
